-- ==== Sys2Proof/Word.lean ====
section
/-!
DEFINITION. The fixed-width words of the block: the command word (30_encoding.md R59), the byte of the packet buffer and
of CUR (10_state.md R16, R23), and the one-bit registers TONE, CF, TEN, OUT (R15, R20, R21, R22). The registers whose
width is a parameter (PHASE, SIB, BITPOS, LENGTH) are unsigned integers, as 00_scope.md R10 writes them.
-/
namespace Sys2Proof

/-- A command word (R59). -/
abbrev Word := BitVec 32

/-- A byte of the packet buffer, and the register CUR (R23, R16). -/
abbrev Byte := BitVec 8

/-- A one-bit register (R15, R20, R21, R22). -/
abbrev Bit := BitVec 1

end Sys2Proof
end

