-- ==== Sys2Proof/Machine/Bits.lean ====
section
/-!
DEFINITION. The notation of 00_scope.md R10 for unsigned integers of a stated width.
-/
namespace Sys2Proof

/-- `trunc_N(v)`: the low N bits of v (R10). -/
def trunc (n v : Nat) : Nat := v % 2 ^ n

/-- `v[i]`: bit i of v (R10). -/
def bitAt (i v : Nat) : Bit := BitVec.ofBool (v.testBit i)

/-- `v[hi:lo]`: bits hi down to lo of v (R10). -/
def slice (hi lo v : Nat) : Nat := v / 2 ^ lo % 2 ^ (hi + 1 - lo)

/-- The least integer whose power of two is at least n, for n at least 1: `ceil(log2 n)`, as the width SW needs it
(00_scope.md R6). -/
def ceilLog2 (n : Nat) : Nat := if n ≤ 1 then 0 else Nat.log2 (n - 1) + 1

end Sys2Proof
end

