-- ==== Sys2Proof/Syntax.lean ====
section
/-!
DEFINITION. The six operations of the block (30_encoding.md R61), the agent that performs each (00_scope.md R5), and the
reasons a command word can be reserved (R64).
-/
namespace Sys2Proof

/-- The operations, one constructor per row of the opcode table (R61). Field A is a 16-bit unsigned number used as it
stands (R60), a byte index or a byte count, so it is a natural number whose range `Instr.wellFormed` checks (log entry 18). -/
inductive Instr where
  | nop
  | reset
  | pktwr (index : Nat) (byte : Byte)
  | start (length : Nat)
  | tick
  | poll
  deriving DecidableEq, Repr

/-- The agents of R5. `any` marks NOP, which any of the three may perform (R61). -/
inductive Agent where
  | fg
  | irq
  | rst
  | any
  deriving DecidableEq, Repr

/-- Why a command word spells no operation (R64). -/
inductive Reserved where
  /-- OP is 0x6 to 0xF. -/
  | opcode
  /-- ZERO is not 0. -/
  | zeroField
  /-- A is not 0 in a command whose A must be 0. -/
  | operandA
  /-- B is not 0 in a command whose B must be 0. -/
  | operandB
  deriving DecidableEq, Repr

/-- The mnemonic column of R61. -/
def Instr.mnemonic : Instr → String
  | .nop => "NOP"
  | .reset => "RESET"
  | .pktwr _ _ => "PKTWR"
  | .start _ => "START"
  | .tick => "TICK"
  | .poll => "POLL"

/-- The agent column of R61. The block does not check it (60_exceptions.md R134): no meaning reads this function, it is
the convention that the access rights of 10_state.md R29 speak of. -/
def Instr.agent : Instr → Agent
  | .nop => .any
  | .reset => .rst
  | .pktwr _ _ => .fg
  | .start _ => .fg
  | .tick => .irq
  | .poll => .fg

end Sys2Proof
end

