-- ==== Sys2Proof/WellFormed.lean ====
section
/-!
DEFINITION. Which instructions can be written as a command word: an operand A has 16 bits (30_encoding.md R59, R60).
Whether an index or a length suits the packet buffer is a precondition of the operation, not a matter of form (R64).
-/
namespace Sys2Proof

/-- The operand A of the instruction fits the 16 bits of its field (R59). -/
def Instr.wellFormed : Instr → Bool
  | .nop => true
  | .reset => true
  | .pktwr index _ => decide (index < 65536)
  | .start length => decide (length < 65536)
  | .tick => true
  | .poll => true

end Sys2Proof
end

