-- ==== Sys2Proof/Decode.lean ====
section
/-!
DEFINITION. The command word CMD32 (30_encoding.md R59), the opcode table (R61), the decoder, total on every word and
rejecting a reserved one by the reason (R64), and after it the encoder (R59, R60).
-/
namespace Sys2Proof

/-- Field OP, bits 31:28 (R59). -/
def Word.op (w : Word) : Nat := slice 31 28 w.toNat

/-- Field ZERO, bits 27:24 (R59). -/
def Word.zero (w : Word) : Nat := slice 27 24 w.toNat

/-- Field A, bits 23:8 (R59): an unsigned number, used as it stands (R60). -/
def Word.a (w : Word) : Nat := slice 23 8 w.toNat

/-- Field B, bits 7:0 (R59). -/
def Word.b (w : Word) : Byte := BitVec.ofNat 8 (slice 7 0 w.toNat)

/-- A row of the opcode table: w is the command when `w and mask` is the pattern (R61). -/
structure OpcodeRow where
  mnemonic : String
  agent : Agent
  pattern : Word
  mask : Word
  deriving DecidableEq, Repr

/-- The opcode table of R61. -/
def opcodeTable : List OpcodeRow :=
  [ ⟨"NOP", .any, 0x00000000, 0xFFFFFFFF⟩,
    ⟨"RESET", .rst, 0x10000000, 0xFFFFFFFF⟩,
    ⟨"PKTWR", .fg, 0x20000000, 0xFF000000⟩,
    ⟨"START", .fg, 0x30000000, 0xFF0000FF⟩,
    ⟨"TICK", .irq, 0x40000000, 0xFFFFFFFF⟩,
    ⟨"POLL", .fg, 0x50000000, 0xFFFFFFFF⟩ ]

/-- A command with no operand: A and B must be 0 (R59, R64). -/
def decodePlain (w : Word) (i : Instr) : Except Reserved Instr :=
  if w.a ≠ 0 then .error .operandA else if w.b ≠ 0 then .error .operandB else .ok i

/-- The operation a command word spells, or why it is reserved (R61, R64). -/
def decode (w : Word) : Except Reserved Instr :=
  if w.zero ≠ 0 then .error .zeroField
  else if w.op = 0 then decodePlain w .nop
  else if w.op = 1 then decodePlain w .reset
  else if w.op = 2 then .ok (.pktwr w.a w.b)
  else if w.op = 3 then if w.b ≠ 0 then .error .operandB else .ok (.start w.a)
  else if w.op = 4 then decodePlain w .tick
  else if w.op = 5 then decodePlain w .poll
  else .error .opcode

/-- The word with the fields OP, A and B and ZERO = 0 (R59). -/
def packFields (op a b : Nat) : Word := BitVec.ofNat 32 (op * 2 ^ 28 + a * 2 ^ 8 + b)

/-- The command word of a well-formed instruction (R61, R66). -/
def encode : Instr → Word
  | .nop => packFields 0 0 0
  | .reset => packFields 1 0 0
  | .pktwr index byte => packFields 2 index byte.toNat
  | .start length => packFields 3 length 0
  | .tick => packFields 4 0 0
  | .poll => packFields 5 0 0

/-- What the decoder reads from a command word given as a number whose bit 0 is the least significant bit of the word.
A command is one 32-bit word (R59), so nothing depends on an order of bytes. -/
def decodeTableWord (nbits w : Nat) : Option Instr :=
  match decode (BitVec.ofNat 32 (trunc nbits w)) with
  | .ok i => some i
  | .error _ => none

end Sys2Proof
end

