-- ==== Sys2Proof/Config.lean ====
section
/-!
DEFINITION. The parameters the source leaves open (00_scope.md R6, R7; 93_implementation_defined.md U12), as data that
carries its own well-formedness, the example configurations of R8, and every value the spec leaves free: the parameters
of the implementation and what RESET leaves in the registers it makes unspecified (10_state.md R31, U7, U8).
-/
namespace Sys2Proof

/-- R7: when a configuration is well formed. -/
abbrev Config.Ok (k deltaMark deltaSpace spb lw cap : Nat) : Prop :=
  1 ≤ k ∧ deltaMark < 2 ^ (k + 7) ∧ deltaSpace < 2 ^ (k + 7) ∧ 1 ≤ spb ∧ 1 ≤ lw ∧ lw ≤ 16 ∧ 1 ≤ cap ∧ cap ≤ 2 ^ lw - 1

/-- A configuration (R6). It carries the conditions of R7, so a configuration that is not well formed cannot be built:
the model refuses it. -/
structure Config where
  /-- base-2 logarithm of the waveform table size -/
  k : Nat
  /-- DELTA_MARK, phase increment of the mark tone -/
  deltaMark : Nat
  /-- DELTA_SPACE, phase increment of the space tone -/
  deltaSpace : Nat
  /-- SPB, sample ticks in one baud interval -/
  spb : Nat
  /-- LW, width of LENGTH and of a packet index in bits -/
  lw : Nat
  /-- CAP, capacity of the packet buffer in bytes -/
  cap : Nat
  ok : Config.Ok k deltaMark deltaSpace spb lw cap
  deriving DecidableEq, Repr

/-- R7: the configuration of six parameters, or none where they are not well formed. -/
def Config.ofParameters (k deltaMark deltaSpace spb lw cap : Nat) : Option Config :=
  if h : Config.Ok k deltaMark deltaSpace spb lw cap then some ⟨k, deltaMark, deltaSpace, spb, lw, cap, h⟩ else none

/-- Config A of R8, the spec's own example. -/
def Config.exampleA : Config := ⟨1, 24, 44, 4, 4, 8, by decide⟩

/-- Config B of R8, the spec's own example. -/
def Config.exampleB : Config := ⟨9, 5957, 10922, 11, 8, 255, by decide⟩

/-! ## The implementation's parameters (log entry 2)

The spec gives them no value (R6: OPEN). Each is any natural number; `Machine/Implementation.lean` brings them into the
ranges of R7. -/

opaque Config.openK : Nat
opaque Config.openDeltaMark : Nat
opaque Config.openDeltaSpace : Nat
opaque Config.openSpb : Nat
opaque Config.openLw : Nat
opaque Config.openCap : Nat

/-! ## What RESET leaves in the unspecified registers (log entry 5)

Free values, one per register: the argument is the number of RESETs before this one. -/

opaque Config.resetPhase : Nat → Nat
opaque Config.resetTone : Nat → Bit
opaque Config.resetCur : Nat → Byte
opaque Config.resetSib : Nat → Nat
opaque Config.resetBitpos : Nat → Nat
opaque Config.resetLength : Nat → Nat
opaque Config.resetOut : Nat → Bit

end Sys2Proof
end

