-- ==== Sys2Proof/Machine/Implementation.lean ====
section
/-!
DEFINITION. The configuration of the machine that State.reset describes: free parameters, brought into the ranges of
00_scope.md R7 by construction. Every well-formed configuration is one of these (log entry 2).
-/
namespace Sys2Proof

/-- The well-formed configuration that six natural numbers select. -/
def Config.ofFree (k deltaMark deltaSpace spb lw cap : Nat) : Config where
  k := k + 1
  deltaMark := deltaMark % 2 ^ (k + 1 + 7)
  deltaSpace := deltaSpace % 2 ^ (k + 1 + 7)
  spb := spb + 1
  lw := lw % 16 + 1
  cap := cap % (2 ^ (lw % 16 + 1) - 1) + 1
  ok := by
    have hk : 0 < 2 ^ (k + 1 + 7) := Nat.two_pow_pos _
    have hl : 2 ^ 1 ≤ 2 ^ (lw % 16 + 1) := Nat.pow_le_pow_right (by omega) (by omega)
    have hc := Nat.mod_lt cap (show 0 < 2 ^ (lw % 16 + 1) - 1 by omega)
    exact ⟨by omega, Nat.mod_lt _ hk, Nat.mod_lt _ hk, by omega, by omega, by omega, by omega, by omega⟩

/-- The implementation's configuration: nothing is known of it but R7. -/
def Config.implementation : Config :=
  Config.ofFree Config.openK Config.openDeltaMark Config.openDeltaSpace Config.openSpb Config.openLw Config.openCap

end Sys2Proof
end

