-- ==== Sys2Proof/Machine/State.lean ====
section
/-!
DEFINITION. The state of the block (10_state.md R13 to R23), with what the model itself must hold beside it, the
reasons a step can stop, and the state after reset (R31).
-/
namespace Sys2Proof.Machine

/-- The packet buffer PKT (R23): the bytes that have been written, by strictly rising index. An index not listed is a
byte nothing has written, which has no value (R31, U9; log entry 6). -/
abbrev Memory := List Host.Cell

/-- R24: the two modes of the block, read off CF. -/
inductive Mode where
  | idle
  | running
  deriving DecidableEq, Repr

/-- Why the machine stops with a fault. -/
inductive Fault where
  /-- LOADBYTE of an index at or above CAP, which does not exist (20_memory.md R35). Raised by TICK alone; no state that
  keeps the ranges of R25 raises it (R50). Safe: the machine stops where the spec gives no effect (log entry 7). -/
  | packetIndexAbsent (index : Nat)
  deriving DecidableEq, Repr

/-- Why the model refuses an operation: the contract violations of 60_exceptions.md R124, treatment `refuse`
(93_implementation_defined.md U1 to U6). All are safe: the spec gives the hardware no behaviour there. -/
inductive Refusal where
  /-- An instruction that has no meaning in the model yet. Raised by exec's arm alone; safe. No arm raises it now. -/
  | notModelled (mnemonic : String)
  /-- U1: START while CF = 1. Raised by START; safe. -/
  | startWhileRunning
  /-- U2: START with A above CAP. Raised by START; safe. -/
  | lengthExceedsCapacity
  /-- U3: LOADBYTE of a byte that no PKTWR has written since the last RESET. Raised by TICK; safe. -/
  | packetByteUnwritten
  /-- U4: PKTWR while CF = 1. Raised by PKTWR; safe. -/
  | pktWriteWhileRunning
  /-- U5: PKTWR with A at or above CAP. Raised by PKTWR; safe. -/
  | pktIndexOutOfRange
  /-- U6: a command word that matches no row of the opcode table. Raised by the step, with the word and the reason;
  safe. -/
  | reservedCommand (word : Word) (why : Reserved)
  deriving DecidableEq, Repr

/-- The state. A register whose width is a parameter is an unsigned integer; the operations that write it keep the low
bits of its width (log entry 3). -/
structure State where
  /-- The configuration (00_scope.md R6, R28 a): the model's argument, written by nothing (log entry 1). -/
  cfg : Config
  /-- PHASE, W bits (R14). -/
  phase : Nat
  /-- TONE, 0 mark, 1 space (R15). -/
  tone : Bit
  /-- CUR (R16). -/
  cur : Byte
  /-- SIB, SW bits (R17). -/
  sib : Nat
  /-- BITPOS, BW bits (R18). -/
  bitpos : Nat
  /-- LENGTH, LW bits (R19). -/
  length : Nat
  /-- CF, 1 while a transmission is in progress (R20). -/
  cf : Bit
  /-- TEN, 1 while the sample timer runs (R21). -/
  ten : Bit
  /-- OUT, the level of the output pin (R22). -/
  out : Bit
  /-- PKT (R23). -/
  pkt : Memory
  /-- The model's own: the bit the last POLL returned, none before any POLL (R63, R111; log entry 10). -/
  resp : Option Bit
  /-- The model's own: the command words the environment has yet to present, the next one first (R59, R66; log entry
  8). -/
  trace : List Word
  /-- The model's own: the number of RESETs performed, which selects the free values of the next one (log entry 5). -/
  resets : Nat
  deriving DecidableEq, Repr

/-- The state after power-on of a block with configuration c (R31): CF and TEN are 0, nothing of PKT is written. The
spec gives the other registers no value; 0 stands for it here (log entry 4). -/
def State.resetOf (c : Config) : State where
  cfg := c
  phase := 0
  tone := 0
  cur := 0
  sib := 0
  bitpos := 0
  length := 0
  cf := 0
  ten := 0
  out := 0
  pkt := []
  resp := none
  trace := []
  resets := 0

/-- The state after reset (R31, R152). -/
def State.reset : State := State.resetOf Config.implementation

end Sys2Proof.Machine
end

