-- ==== Sys2Proof/Machine/Widths.lean ====
section
/-!
DEFINITION. The sizes that follow from a configuration (00_scope.md R6, R8), and the informative relation between a
frequency and its increment (40_tone_generator.md R77).
-/
namespace Sys2Proof

/-- F: the fractional bits of PHASE (R6). -/
def Config.fractionBits : Nat := 7

/-- TABLE_SIZE = 2^K (R6). -/
def Config.tableSize (c : Config) : Nat := 2 ^ c.k

/-- W, the width of PHASE (R8). -/
def Config.w (c : Config) : Nat := c.k + Config.fractionBits

/-- PERIOD, the modulus of PHASE: 2^W (R6, R8). -/
def Config.period (c : Config) : Nat := 2 ^ c.w

/-- SW, the width of SIB (R6). -/
def Config.sw (c : Config) : Nat := max 1 (ceilLog2 c.spb)

/-- BW, the width of BITPOS (R6). -/
def Config.bw (c : Config) : Nat := c.lw + 3

/-- R77 (informative; no operation reads it): the increment of a tone, with the frequency and the sample rate in one
common unit (log entry 16). The quotient is truncated, as the spec takes it. -/
def Config.incrementFor (k frequency sampleRate : Nat) : Nat := 2 ^ k * 2 ^ Config.fractionBits * frequency / sampleRate

end Sys2Proof
end

