-- ==== Sys2Proof/Machine/Ops.lean ====
section
/-!
DEFINITION. The named operations over memory and registers: the packet buffer (20_memory.md), one write per register,
which keeps the low bits of the register's width (10_state.md R13), the sequencing of micro-operations, what power-on
leaves, and the presentation of the next command word. The block takes no exception (60_exceptions.md R123) and saves
and restores nothing around TICK (R132, R133), so there is no exception entry and no return to share.
-/
namespace Sys2Proof.Machine

/-! ## The packet buffer -/

/-- What a byte that nothing has written reads as: no value (10_state.md R31, U9). -/
def Memory.unlisted : Option Byte := none

/-- The byte at index a, or what an unlisted index reads as (20_memory.md R40). -/
def Memory.read : Memory → Nat → Option Byte
  | [], _ => Memory.unlisted
  | cell :: rest, a => if cell.1 = a then some cell.2 else Memory.read rest a

/-- Store byte b at index a (R36), keeping the indices strictly rising. No byte equals what an unlisted index reads as,
so every stored byte is listed. -/
def Memory.write : Memory → Nat → Byte → Memory
  | [], a, b => [(a, b)]
  | cell :: rest, a, b =>
    if a < cell.1 then (a, b) :: cell :: rest
    else if a = cell.1 then (a, b) :: rest
    else cell :: Memory.write rest a b

/-- The canonical form: indices strictly rising. -/
abbrev Memory.wf (m : Memory) : Prop := m.Pairwise (fun x y => x.1 < y.1)

/-! ## Register writes -/

/-- PHASE <- v, W bits (R14). -/
def State.setPhase (s : State) (v : Nat) : State := { s with phase := trunc s.cfg.w v }

/-- TONE <- v (R15). -/
def State.setTone (s : State) (v : Bit) : State := { s with tone := v }

/-- CUR <- v (R16). -/
def State.setCur (s : State) (v : Byte) : State := { s with cur := v }

/-- SIB <- v, SW bits (R17). -/
def State.setSib (s : State) (v : Nat) : State := { s with sib := trunc s.cfg.sw v }

/-- BITPOS <- v, BW bits (R18). -/
def State.setBitpos (s : State) (v : Nat) : State := { s with bitpos := trunc s.cfg.bw v }

/-- LENGTH <- v[LW-1:0] (R19, 30_encoding.md R60). -/
def State.setLength (s : State) (v : Nat) : State := { s with length := trunc s.cfg.lw v }

/-- CF <- v (R20). -/
def State.setCf (s : State) (v : Bit) : State := { s with cf := v }

/-- TEN <- v (R21). -/
def State.setTen (s : State) (v : Bit) : State := { s with ten := v }

/-- OUT <- v (R22). -/
def State.setOut (s : State) (v : Bit) : State := { s with out := v }

/-- PKT <- m (R23). -/
def State.setPkt (s : State) (m : Memory) : State := { s with pkt := m }

/-- The bit an operation returns to its agent (R63). -/
def State.setResp (s : State) (v : Option Bit) : State := { s with resp := v }

/-- The command words still to come. -/
def State.setTrace (s : State) (ws : List Word) : State := { s with trace := ws }

/-- The number of RESETs performed. -/
def State.setResets (s : State) (n : Nat) : State := { s with resets := n }

/-! ## Sequencing -/

/-- Perform f, then g on the state f leaves; a stop of f is the stop of both (00_scope.md R11). -/
def andThen (x : Host.Outcome State Fault Refusal) (g : State → Host.Outcome State Fault Refusal) :
    Host.Outcome State Fault Refusal :=
  match x with
  | .next s => g s
  | .fault f => .fault f
  | .refused r => .refused r

/-- The state an operation leaves, for an operation performed in state s: one that stops leaves the state as it was
(92_eei_decisions.md D16). -/
def stateLeft (s : State) (x : Host.Outcome State Fault Refusal) : State :=
  match x with
  | .next t => t
  | .fault _ => s
  | .refused _ => s

/-! ## Power-on -/

/-- The registers RESET makes unspecified, at the free values of this RESET (43_orchestrator_interface.md R108; log
entry 5). -/
def State.unspecifyRegisters (s : State) : State :=
  ((((((((s.setPhase (Config.resetPhase s.resets)).setTone (Config.resetTone s.resets)).setCur
    (Config.resetCur s.resets)).setSib (Config.resetSib s.resets)).setBitpos (Config.resetBitpos s.resets)).setLength
    (Config.resetLength s.resets)).setOut (Config.resetOut s.resets)).setResets (s.resets + 1))

/-- Every byte of PKT becomes unwritten (R108, U9). -/
def State.unwritePacket (s : State) : State := s.setPkt []

/-! ## The next command of the environment -/

/-- The next command word, and the state in which it is no longer to come (R44, R59; log entry 8). -/
def State.nextCommand (s : State) : Option (Word × State) :=
  match s.trace with
  | [] => none
  | w :: rest => some (w, s.setTrace rest)

/-- The state with the word w as the next command the environment presents. -/
def State.presentFirst (s : State) (w : Word) : State := s.setTrace (w :: s.trace)

end Sys2Proof.Machine
end

