-- ==== Sys2Proof/Machine/Flags.lean ====
section
/-!
DEFINITION. The flag computations: the Completion Flag CF is the only status flag (10_state.md R32), it is always
written together with the timer enable TEN (R26), and MODE is read off it (R24). No operation computes a carry, zero,
overflow or sign flag.
-/
namespace Sys2Proof.Machine

/-- MODE (R24). -/
def State.mode (s : State) : Mode := if s.cf = 1 then .running else .idle

/-- The timer is started and the flag set, in that order (43_orchestrator_interface.md R110). -/
def State.raiseBusy (s : State) : State := (s.setTen 1).setCf 1

/-- The timer is stopped and the flag cleared, in that order (42_scheduler.md R93). -/
def State.clearBusy (s : State) : State := (s.setTen 0).setCf 0

end Sys2Proof.Machine
end

