-- ==== Sys2Proof/Machine/Operands.lean ====
section
/-!
DEFINITION. The operand forms: the position in the packet that BITPOS holds (30_encoding.md R56), the end position
LENGTH x 8 (R60), and the one addressing mode, a byte index in a register (41_bit_framer.md R82).
-/
namespace Sys2Proof.Machine

/-- BYTEIDX = BITPOS[BW-1:3] (R56). -/
def State.byteIndex (s : State) : Nat := slice (s.cfg.bw - 1) 3 s.bitpos

/-- BITNUM = BITPOS[2:0] (R56). -/
def State.bitNumber (s : State) : Nat := slice 2 0 s.bitpos

/-- LENGTH x 8, as the concatenation of LENGTH with three zero bits (R60). -/
def State.lengthBits (s : State) : Nat := s.length * 2 ^ 3

/-- `MemRead(a, 1)` (00_scope.md R11): the byte of PKT at index a. An index at or above CAP does not exist (20_memory.md
R35); a byte never written has no value (93_implementation_defined.md U3). -/
def State.readPacket (s : State) (a : Nat) (use : Byte → State) : Host.Outcome State Fault Refusal :=
  if s.cfg.cap ≤ a then .fault (.packetIndexAbsent a)
  else
    match Memory.read s.pkt a with
    | some b => .next (use b)
    | none => .refused .packetByteUnwritten

/-- `MemWrite(a, 1, b)` (R11). -/
def State.writePacket (s : State) (a : Nat) (b : Byte) : State := s.setPkt (Memory.write s.pkt a b)

end Sys2Proof.Machine
end

