-- ==== Sys2Proof/Machine/Foreground.lean ====
section
/-!
DEFINITION. The operations that are not the Scheduler (43_orchestrator_interface.md): NOP (R107), RESET (R108), PKTWR
(R109), START (R110) and POLL (R111). A broken precondition is refused by the name of the first one the operation tests
(60_exceptions.md R124, R130).
-/
namespace Sys2Proof.Machine

/-- NOP (R107). -/
def execNop (s : State) : Host.Outcome State Fault Refusal := .next s

/-- RESET (R108): accepted in every mode. -/
def execReset (s : State) : Host.Outcome State Fault Refusal :=
  .next s.clearBusy.unspecifyRegisters.unwritePacket

/-- PKTWR (R109). -/
def execPktwr (index : Nat) (byte : Byte) (s : State) : Host.Outcome State Fault Refusal :=
  if s.cf = 1 then .refused .pktWriteWhileRunning
  else if s.cfg.cap ≤ index then .refused .pktIndexOutOfRange
  else .next (s.writePacket index byte)

/-- The reinitialisation of the modulation state (R110, 70_reset_and_hazards.md R151 b): CUR is not written (10_state.md
R30). -/
def State.resetModulation (s : State) : State := (((s.setPhase 0).setTone 0).setSib 0).setBitpos 0

/-- START (R110). -/
def execStart (length : Nat) (s : State) : Host.Outcome State Fault Refusal :=
  if s.cf = 1 then .refused .startWhileRunning
  else if s.cfg.cap < length then .refused .lengthExceedsCapacity
  else .next (s.resetModulation.setLength length).raiseBusy

/-- POLL (R111): returns CF. -/
def execPoll (s : State) : Host.Outcome State Fault Refusal := .next (s.setResp (some s.cf))

end Sys2Proof.Machine
end

