-- ==== Sys2Proof/Machine/BitFramer.lean ====
section
/-!
DEFINITION. The Bit Framer (41_bit_framer.md): FRAME (R81) and its parts LOADBYTE (R82), SHIFT (R83) and the tone
selector DECIDE (R84).
-/
namespace Sys2Proof.Machine

/-- LOADBYTE (R82): CUR takes the byte that holds the next bit. -/
def loadByte (s : State) : Host.Outcome State Fault Refusal := s.readPacket s.byteIndex s.setCur

/-- SHIFT (R83): a logical right shift by one. -/
def shift (s : State) : State := s.setCur (s.cur >>> 1)

/-- DECIDE (R84): a 0 bit toggles the tone, a 1 bit holds it. -/
def decideTone (s : State) : State := if bitAt 0 s.cur.toNat = 0 then s.setTone (s.tone ^^^ 1) else s

/-- FRAME (R81). -/
def frame (s : State) : Host.Outcome State Fault Refusal :=
  andThen (if s.bitNumber = 0 then loadByte s else .next (shift s)) fun loaded => .next (decideTone loaded)

end Sys2Proof.Machine
end

