-- ==== Sys2Proof/Machine/ToneGenerator.lean ====
section
/-!
DEFINITION. The Tone Generator (40_tone_generator.md): the bit-to-frequency mapper DELTA (R71), the phase accumulator
step ADVANCE (R72) and the output level DRIVE (R73).
-/
namespace Sys2Proof

/-- DELTA(t) (R71). -/
def Config.delta (c : Config) (t : Bit) : Nat := if t = 0 then c.deltaMark else c.deltaSpace

end Sys2Proof

namespace Sys2Proof.Machine

/-- ADVANCE (R72): the sum is exact, and the register keeps its low W bits, which is the sum modulo PERIOD. -/
def advance (s : State) : State := s.setPhase (s.phase + s.cfg.delta s.tone)

/-- DRIVE (R73): the output pin takes the top bit of PHASE. -/
def drive (s : State) : State := s.setOut (bitAt (s.cfg.w - 1) s.phase)

end Sys2Proof.Machine
end

