-- ==== Sys2Proof/Machine/Scheduler.lean ====
section
/-!
DEFINITION. The Sample Clock Scheduler (42_scheduler.md): STOP (R93), COUNT (R96) and the operation TICK (R91).
-/
namespace Sys2Proof.Machine

/-- STOP (R93). -/
def stopRun (s : State) : State := s.clearBusy

/-- COUNT (R96): the exact integer SIB + 1 is compared with SPB, and then stored. -/
def count (s : State) : State :=
  if s.sib + 1 = s.cfg.spb then (s.setSib 0).setBitpos (s.bitpos + 1) else s.setSib (s.sib + 1)

/-- Step 2 of TICK (R94): FRAME on the first tick of a baud interval. -/
def frameStep (s : State) : Host.Outcome State Fault Refusal := if s.sib = 0 then frame s else .next s

/-- Steps 3 and 4 of TICK (R95, R96), in this order (R97). -/
def produceSample (s : State) : State := count (drive (advance s))

/-- TICK (R91): ignored while the timer is stopped (R92), final at the end of the packet (R93), else one sample. -/
def execTick (s : State) : Host.Outcome State Fault Refusal :=
  if s.ten = 0 then .next s
  else if s.bitpos = s.lengthBits then .next (stopRun s)
  else andThen (frameStep s) fun framed => .next (produceSample framed)

end Sys2Proof.Machine
end

