-- ==== Sys2Proof/Machine/Dispatch.lean ====
section
/-!
DEFINITION. The dispatch: one arm per operation of the opcode table, each one call of its meaning.
-/
namespace Sys2Proof.Machine

/-- Perform one operation (00_scope.md R9). -/
def exec (i : Instr) (s : State) : Host.Outcome State Fault Refusal :=
  match i with
  | .nop => Sys2Proof.Machine.execNop s
  | .reset => Sys2Proof.Machine.execReset s
  | .pktwr index byte => Sys2Proof.Machine.execPktwr index byte s
  | .start length => Sys2Proof.Machine.execStart length s
  | .tick => Sys2Proof.Machine.execTick s
  | .poll => Sys2Proof.Machine.execPoll s

end Sys2Proof.Machine
end

