-- ==== Sys2Proof/Machine/Trace.lean ====
section
/-!
DEFINITION. Sequences of operations, and their written form (30_encoding.md R66): a command word performed, several
operations in a row, the pseudo-instructions with their expansions, a trace of lines, and its presentation to the block.
RUN and WAIT repeat an operation until the block answers, so an expansion is one of a pseudo-instruction and of the
state in which it is reached (log entry 12). A command that is refused is a line like any other: it leaves the state as
it was, and the trace goes on (92_eei_decisions.md D16).
-/
namespace Sys2Proof

/-- The pseudo-instructions (R66). -/
inductive Pseudo where
  | ticks (n : Nat)
  | baud
  | load (bytes : List Byte)
  | run
  | wait
  | transmit (n : Nat)
  deriving DecidableEq, Repr

/-- A line of a trace (R66): a command, a pseudo-instruction, or a command word written as a number, as program P7 of
95_test_vectors.md writes the reserved ones. -/
inductive Line where
  | command (i : Instr)
  | pseudo (p : Pseudo)
  | word (w : Word)
  deriving DecidableEq, Repr

namespace Machine

/-! ## Several operations in a row -/

/-- Perform the operation a command word spells; a reserved word spells none and is refused (30_encoding.md R64). -/
def performWord (w : Word) (s : State) : Host.Outcome State Fault Refusal :=
  match decode w with
  | .ok i => exec i s
  | .error why => .refused (.reservedCommand w why)

/-- Perform operations one after the other (20_memory.md R44), stopping at the first that does not answer a next state.
-/
def execAll : List Instr → State → Host.Outcome State Fault Refusal
  | [], s => .next s
  | i :: rest, s => andThen (exec i s) (execAll rest)

/-- The state that a sequence leaves, each member of it performed in the state that those before it leave. -/
def leaveAll {α : Type} (perform : α → State → Host.Outcome State Fault Refusal) : List α → State → State
  | [], s => s
  | a :: rest, s => leaveAll perform rest (stateLeft s (perform a s))

/-- What each word of a sequence answers: its next state, or the reason it is refused, which the model reports
(60_exceptions.md R124) and after which the sequence goes on. -/
def outcomes : List Word → State → List (Host.Outcome State Fault Refusal)
  | [], _ => []
  | w :: rest, s => performWord w s :: outcomes rest (stateLeft s (performWord w s))

/-! ## The written form -/

/-- Operation i repeated, at least once, until it leaves a state in which `stop` holds. None where the given number of
repetitions does not reach the end. -/
def repeatUntil (i : Instr) (stop : State → Bool) : Nat → State → Option (List Instr)
  | 0, _ => none
  | fuel + 1, s =>
    if stop (stateLeft s (exec i s)) then some [i]
    else (repeatUntil i stop fuel (stateLeft s (exec i s))).map (i :: ·)

/-- PKTWR of consecutive bytes from an index on. -/
def loadFrom : Nat → List Byte → List Instr
  | _, [] => []
  | index, b :: rest => .pktwr index b :: loadFrom (index + 1) rest

/-- RUN (R66): TICK repeated until a TICK leaves TEN = 0. No state whose registers fit their widths needs more
repetitions than the bound: SIB and BITPOS then run through all their values. Where a TICK of the run is refused, no
TICK after it leaves TEN = 0, and RUN stands for no finite sequence. -/
def expandRun (s : State) : Option (List Instr) :=
  repeatUntil .tick (fun t => t.ten = 0) (2 ^ s.cfg.sw * (2 ^ s.cfg.bw + 1) + 1) s

/-- WAIT (R66): POLL repeated until it returns 0. POLL changes nothing of the block, so where the first one does not
return 0 none does, and WAIT stands for no finite sequence. -/
def expandWait (s : State) : Option (List Instr) := repeatUntil .poll (fun t => t.resp = some 0) 1 s

/-- The operations a pseudo-instruction stands for where it is reached in state s (R66). -/
def expandPseudo (s : State) : Pseudo → Option (List Instr)
  | .ticks n => some (List.replicate n .tick)
  | .baud => some (List.replicate s.cfg.spb .tick)
  | .load bytes => some (loadFrom 0 bytes)
  | .run => expandRun s
  | .wait => expandWait s
  | .transmit n =>
    (expandRun (stateLeft s (exec (.start n) s))).bind fun run =>
      (expandWait (leaveAll exec (.start n :: run) s)).map fun wait => .start n :: (run ++ wait)

/-- The command words a line stands for; a command whose operand does not fit its field cannot be written. -/
def expandLine (s : State) : Line → Option (List Word)
  | .command i => if i.wellFormed then some [encode i] else none
  | .pseudo p => (expandPseudo s p).map (List.map encode)
  | .word w => some [w]

/-- The command words a trace stands for (R66), each line expanded in the state that the lines before it leave. -/
def expandTrace : List Line → State → Option (List Word)
  | [], _ => some []
  | line :: rest, s =>
    (expandLine s line).bind fun ws => (expandTrace rest (leaveAll performWord ws s)).map (ws ++ ·)

/-- The state in which the environment will present the words after those it already has to present. -/
def State.presentLast (s : State) (ws : List Word) : State := s.setTrace (s.trace ++ ws)

end Machine

end Sys2Proof
end

