-- ==== Sys2Proof/Machine/Step.lean ====
section
/-!
DEFINITION. One step: the environment presents its next command word and the block performs it (00_scope.md R9,
20_memory.md R44). With no word to come nothing happens (43_orchestrator_interface.md R107; log entry 9).
-/
namespace Sys2Proof.Machine

/-- One step. A reserved word spells no operation and is refused (30_encoding.md R64). -/
def step (s : State) : Host.Outcome State Fault Refusal :=
  match s.nextCommand with
  | none => .next s
  | some (w, rest) => performWord w rest

/-- The state in which the command word w, given as a number of nbits bits, is the next one the environment presents.
-/
def State.withFetchWord (s : State) (nbits w : Nat) : State := s.presentFirst (BitVec.ofNat 32 (trunc nbits w))

end Sys2Proof.Machine
end

