-- ==== Sys2Proof/Machine/Pins.lean ====
section
/-!
DEFINITION. The same interface as signals (30_encoding.md R67): one way to wrap the operations in pins. The strobes of
one instant are operations in one order, RESET last (60_exceptions.md R129, R131).
-/
namespace Sys2Proof.Machine

/-- The input signals of one instant (R67). -/
structure Pins where
  rst : Bool
  pktWe : Bool
  pktWaddr : Nat
  pktWdata : Byte
  start : Bool
  len : Nat
  tick : Bool
  deriving DecidableEq, Repr

/-- The output signals (R67): `busy` is CF, `timer_en` is TEN, `out` is OUT. -/
structure PinsOut where
  busy : Bit
  timerEn : Bit
  out : Bit
  deriving DecidableEq, Repr

/-- Strobes are never asserted together except with `rst` (R67), and the operands fit their LW bits. -/
def pinsLawful (c : Config) (p : Pins) : Bool :=
  decide (p.pktWe.toNat + p.start.toNat + p.tick.toNat ≤ 1) && decide (p.pktWaddr < 2 ^ c.lw) &&
    decide (p.len < 2 ^ c.lw)

/-- The operations of the asserted strobes other than `rst`; lawful signals have at most one. -/
def pinsStrobes (p : Pins) : List Instr :=
  (if p.pktWe then [.pktwr p.pktWaddr p.pktWdata] else []) ++ (if p.start then [.start p.len] else []) ++
    (if p.tick then [.tick] else [])

/-- The operations the asserted strobes stand for, in order: RESET wins, so it comes last (R131). -/
def pinsOperations (p : Pins) : List Instr := pinsStrobes p ++ if p.rst then [.reset] else []

/-- One instant of the signals. RESET is performed after the other operation whatever that was: where the other is
refused, it leaves the state as it was, and RESET follows all the same (R131, D20; log entry 15). -/
def execPins (p : Pins) (s : State) : Host.Outcome State Fault Refusal :=
  if p.rst then exec .reset (stateLeft s (execAll (pinsStrobes p) s)) else execAll (pinsStrobes p) s

/-- What the output signals show of a state. -/
def pinsOut (s : State) : PinsOut := ⟨s.cf, s.ten, s.out⟩

end Sys2Proof.Machine
end

