-- ==== Sys2Proof/Safety.lean ====
section
/-!
DEFINITION. What counts as a safe run, in the terms the claims use: the ranges of the state (10_state.md R25, R26), the
preconditions of the operations (60_exceptions.md R124), the closed form of a run (20_memory.md R51, 42_scheduler.md
R105) and the performance of several operations in a row.
-/
namespace Sys2Proof.Machine

/-! ## Ranges of the state -/

/-- Every register of a parametric width holds a value of that width (10_state.md R13), and PKT is in canonical form
with indices below CAP only (20_memory.md R35). -/
abbrev State.Fits (s : State) : Prop :=
  s.phase < s.cfg.period ∧ s.sib < 2 ^ s.cfg.sw ∧ s.bitpos < 2 ^ s.cfg.bw ∧ s.length < 2 ^ s.cfg.lw ∧
    Memory.wf s.pkt ∧ ∀ c ∈ s.pkt, c.1 < s.cfg.cap

/-- R25 a, b, c: the ranges that hold while a transmission is in progress. -/
abbrev State.RunRanges (s : State) : Prop :=
  s.sib < s.cfg.spb ∧ s.bitpos ≤ s.length * 8 ∧ s.length ≤ s.cfg.cap

/-- The invariant of the block: widths, R26 (CF = TEN) and, in mode RUNNING, R25. -/
abbrev State.Inv (s : State) : Prop := s.Fits ∧ s.cf = s.ten ∧ (s.mode = .running → s.RunRanges)

/-! ## The packet as a bit stream, and the run it determines -/

/-- b(i) (20_memory.md R51): bit i mod 8 of byte i / 8, where that byte has been written. -/
def streamBit (m : Memory) (i : Nat) : Option Bit := (Memory.read m (i / 8)).map fun b => bitAt (i % 8) b.toNat

/-- How many of b(0), ..., b(n - 1) are 0. -/
def zeroBits (m : Memory) : Nat → Nat
  | 0 => 0
  | n + 1 => zeroBits m n + if streamBit m n = some 0 then 1 else 0

/-- The tone after n bits have been consumed: space where an odd number of them are 0 (30_encoding.md R57). The T(i) of
R105 is the tone after i + 1 bits. -/
def toneAfter (m : Memory) (n : Nat) : Bit := BitVec.ofNat 1 (zeroBits m n)

/-- P(t) (R105): PHASE after t sample ticks of a run. -/
def phaseAfter (c : Config) (m : Memory) : Nat → Nat
  | 0 => 0
  | t + 1 => (phaseAfter c m t + c.delta (toneAfter m (t / c.spb + 1))) % c.period

/-- The number of sample ticks performed so far in the run (60_exceptions.md R137). -/
def State.samplesDone (s : State) : Nat := s.bitpos * s.cfg.spb + s.sib

/-- The number of bits FRAME has consumed so far in the run (41_bit_framer.md R85). -/
def State.bitsConsumed (s : State) : Nat := if s.sib = 0 then s.bitpos else s.bitpos + 1

/-- Where the registers stand in the middle of a run, as the packet determines it: the closed form of R105, and R87 for
CUR once a bit has been consumed. -/
abbrev State.FollowsPacket (s : State) : Prop :=
  s.tone = toneAfter s.pkt s.bitsConsumed ∧ s.phase = phaseAfter s.cfg s.pkt s.samplesDone ∧
    (0 < s.samplesDone → s.out = bitAt (s.cfg.w - 1) s.phase) ∧
    (0 < s.bitsConsumed →
      (Memory.read s.pkt ((s.bitsConsumed - 1) / 8)).map (fun (b : Byte) => (b >>> ((s.bitsConsumed - 1) % 8) : Byte)) =
        some s.cur)

/-- The invariant of the block with the closed form of the run in progress. -/
abbrev State.RunInv (s : State) : Prop := s.Inv ∧ (s.mode = .running → s.FollowsPacket)

/-- Every byte of index below n has been written since the last RESET (43_orchestrator_interface.md R110 c). -/
abbrev State.Written (s : State) (n : Nat) : Prop := ∀ j < n, (Memory.read s.pkt j).isSome = true

/-! ## The preconditions of the operations -/

/-- The contract violation an operation meets in a state, the first one it tests (R124, R130); none where its
preconditions hold. For TICK: the LOADBYTE of a byte never written, on a tick that passes the gate and the end test at
a position where SIB is 0 and BITPOS a multiple of 8. -/
def violation (i : Instr) (s : State) : Option Refusal :=
  match i with
  | .nop => none
  | .reset => none
  | .pktwr index _ =>
    if s.mode = .running then some .pktWriteWhileRunning
    else if s.cfg.cap ≤ index then some .pktIndexOutOfRange else none
  | .start length =>
    if s.mode = .running then some .startWhileRunning
    else if s.cfg.cap < length then some .lengthExceedsCapacity else none
  | .tick =>
    if s.ten = 1 ∧ s.bitpos ≠ s.length * 8 ∧ s.sib = 0 ∧ s.bitpos % 8 = 0 ∧ Memory.read s.pkt (s.bitpos / 8) = none then
      some .packetByteUnwritten
    else none
  | .poll => none

/-! ## Several operations in a row -/

/-- k TICKs in a row. -/
def ticks (k : Nat) (s : State) : Host.Outcome State Fault Refusal := execAll (List.replicate k .tick) s

/-- k steps in a row, each with the next command word the environment presents. -/
def steps : Nat → State → Host.Outcome State Fault Refusal
  | 0, s => .next s
  | k + 1, s => andThen (step s) (steps k)

/-- The operations the environment may perform at any time of a run without breaking it off (43 R116, R167). -/
def passiveOp (i : Instr) : Bool := i = .nop || i = .poll || i = .tick

/-- A command word that spells NOP, POLL or TICK. -/
def passiveWord (w : Word) : Bool :=
  match decode w with
  | .ok i => passiveOp i
  | .error _ => false

/-- The words the environment has yet to present spell only NOP, POLL and TICK. -/
abbrev State.TracePassive (s : State) : Prop := s.trace.all passiveWord = true

/-- How many TICKs the environment has yet to present (log entry 17). -/
def State.ticksToCome (s : State) : Nat := s.trace.countP fun w => decode w = .ok .tick

/-- How many TICKs the run in progress still needs, its final tick included (42_scheduler.md R99). -/
def State.ticksNeeded (s : State) : Nat := s.length * 8 * s.cfg.spb - s.samplesDone + 1

end Sys2Proof.Machine
end

