-- ==== Sys2Proof/Certificates/Slice0/Obligations.lean ====
section
/-!
DEFINITION. The statements about the machine, each the formal reading of numbered rules of spec/ or derived from them.
They hold for every configuration (00_scope.md R7): a state carries its own.
-/
open Sys2Proof Sys2Proof.Machine

/-! ## Configurations -/

/-- R7: a configuration is built exactly where its parameters are well formed, and it has them. -/
def Obligations.IllFormedConfigurationIsRefused : Prop :=
  ∀ k dm ds spb lw cap : Nat,
    (Config.ofParameters k dm ds spb lw cap = none ↔
      ¬(1 ≤ k ∧ dm < 2 ^ (k + 7) ∧ ds < 2 ^ (k + 7) ∧ 1 ≤ spb ∧ 1 ≤ lw ∧ lw ≤ 16 ∧ 1 ≤ cap ∧ cap ≤ 2 ^ lw - 1)) ∧
    ∀ c, Config.ofParameters k dm ds spb lw cap = some c →
      c.k = k ∧ c.deltaMark = dm ∧ c.deltaSpace = ds ∧ c.spb = spb ∧ c.lw = lw ∧ c.cap = cap

/-- The parameters of the machine State.reset describes are free: every configuration that R7 admits is one that some
free numbers select, so no statement about reset leans on a value of them (log entry 2, the model's choice). -/
def Obligations.EveryConfigurationIsAdmitted : Prop :=
  ∀ c : Config, ∃ k dm ds spb lw cap : Nat, Config.ofFree k dm ds spb lw cap = c

/-- R6, R8: PERIOD = TABLE_SIZE x 2^7 = 2^W, reduction modulo PERIOD is truncation to W bits; SW is the least width of
at least 1 that holds 0 to SPB - 1; BW = LW + 3 holds CAP x 8. -/
def Obligations.WidthsFollowFromTheParameters : Prop :=
  ∀ c : Config, c.period = c.tableSize * 2 ^ 7 ∧ c.period = 2 ^ c.w ∧ c.w = c.k + 7 ∧ (∀ v, trunc c.w v = v % c.period) ∧
    c.sw = max 1 (Nat.clog 2 c.spb) ∧ c.spb ≤ 2 ^ c.sw ∧ c.bw = c.lw + 3 ∧ c.cap * 8 < 2 ^ c.bw

/-- R77 (informative): the increment of a tone is the truncated quotient of the rule, and Config B of R8 has the
increments of 1200 Hz and 2200 Hz at 13200 samples per second. -/
def Obligations.IncrementsFollowFromFrequencies : Prop :=
  (∀ k f r : Nat, 0 < r → Config.incrementFor k f r * r ≤ 2 ^ k * 2 ^ 7 * f ∧
    2 ^ k * 2 ^ 7 * f < (Config.incrementFor k f r + 1) * r) ∧
  Config.exampleB.deltaMark = Config.incrementFor Config.exampleB.k 1200 13200 ∧
  Config.exampleB.deltaSpace = Config.incrementFor Config.exampleB.k 2200 13200

/-! ## Encoding -/

/-- R59, R60: no operand bit of a well-formed instruction is lost by its encoding. -/
def Obligations.DecodeOfEncode : Prop := ∀ i : Instr, i.wellFormed = true → decode (encode i) = .ok i

/-- R59, R64: a word that decodes is the encoding of the well-formed instruction it decodes to, so two words never
spell one operation. -/
def Obligations.EncodeOfDecode : Prop := ∀ (w : Word) (i : Instr), decode w = .ok i → i.wellFormed = true ∧ encode i = w

/-- R61: `(w and mask) = match` says which command a word is, with the operands of its columns A and B, and at most
one row of the table matches a word. -/
def Obligations.OpcodeTableSelectsTheCommand : Prop :=
  ∀ w : Word,
    (∀ row ∈ opcodeTable, w &&& row.mask = row.pattern ↔
      ∃ i, decode w = .ok i ∧ i.mnemonic = row.mnemonic ∧ i.agent = row.agent) ∧
    (w &&& (0xFF000000 : Word) = 0x20000000 → decode w = .ok (.pktwr w.a w.b)) ∧
    (w &&& (0xFF0000FF : Word) = 0x30000000 → decode w = .ok (.start w.a)) ∧
    ∀ row ∈ opcodeTable, ∀ row' ∈ opcodeTable,
      w &&& row.mask = row.pattern → w &&& row'.mask = row'.pattern → row = row'

/-- R59, R60: PKTWR takes its index from bits 23:8 and its byte from bits 7:0, START its length from bits 23:8, as
unsigned numbers that are neither scaled nor extended. -/
def Obligations.OperandsAreUsedAsTheyStand : Prop :=
  ∀ w : Word,
    (∀ index byte, decode w = .ok (.pktwr index byte) →
      index = w.toNat / 256 % 65536 ∧ byte.toNat = w.toNat % 256 ∧ w.toNat = 0x20000000 + index * 256 + byte.toNat) ∧
    ∀ length, decode w = .ok (.start length) →
      length = w.toNat / 256 % 65536 ∧ w.toNat = 0x30000000 + length * 256

/-- R64: which words are reserved, by the table and by the list the rule gives; the decoder gives exactly these no
operation, and a step refuses exactly these and changes no state. That a refusal carries no state is log entry 14. -/
def Obligations.ReservedWordsAreRefused : Prop :=
  ∀ (s : State) (w : Word) (rest : List Word), s.trace = w :: rest →
    ((∀ row ∈ opcodeTable, w &&& row.mask ≠ row.pattern) ↔
      6 ≤ w.op ∨ w.zero ≠ 0 ∨ ((w.op = 0 ∨ w.op = 1 ∨ w.op = 4 ∨ w.op = 5) ∧ (w.a ≠ 0 ∨ w.b ≠ 0)) ∨
        (w.op = 3 ∧ w.b ≠ 0)) ∧
    ((∀ row ∈ opcodeTable, w &&& row.mask ≠ row.pattern) ↔ ∃ why, decode w = .error why) ∧
    ((∀ row ∈ opcodeTable, w &&& row.mask ≠ row.pattern) ↔ ∃ why, step s = .refused (.reservedCommand w why))

/-- Words written out from the encodings of R61 and R66 decode to what they stand for (95_test_vectors.md 2.1). -/
def Obligations.WrittenWordsDecode : Prop :=
  decode 0x00000000 = .ok .nop ∧ decode 0x10000000 = .ok .reset ∧ decode 0x200000A5 = .ok (.pktwr 0 0xA5) ∧
    decode 0x2000013C = .ok (.pktwr 1 0x3C) ∧ decode 0x30000200 = .ok (.start 2) ∧ decode 0x40000000 = .ok .tick ∧
    decode 0x50000000 = .ok .poll

/-! ## The step -/

/-- R44, R59: when the next command word decodes to i, the step performs exactly i, and the word is no longer to come
(how commands reach the block is the model's choice, log entry 8). -/
def Obligations.StepPerformsTheNextCommand : Prop :=
  ∀ (s : State) (w : Word) (rest : List Word) (i : Instr), s.trace = w :: rest →
    (decode w = .ok i → step s = exec i { s with trace := rest }) ∧
    (i.wellFormed = true → w = encode i → step s = exec i { s with trace := rest })

/-- R107, U14: where the environment presents nothing, nothing happens, for ever (the model's choice, log entry 9). -/
def Obligations.NoEventChangesNothing : Prop :=
  ∀ (s : State) (k : Nat), s.trace = [] → steps k s = .next s

/-! ## The operations of the foreground and of reset -/

/-- R107: NOP does nothing. -/
def Obligations.NopDoesNothing : Prop := ∀ s : State, exec .nop s = .next s

/-- R111: POLL returns CF and writes nothing of the block. The answer stands in a field of the model's own (log entry
10). -/
def Obligations.PollReturnsTheCompletionFlag : Prop :=
  ∀ s : State, ∃ t, exec .poll s = .next t ∧ t.resp = some s.cf ∧ t = { s with resp := t.resp }

/-- R108: RESET clears TEN and CF in every mode and leaves every byte of PKT unwritten; of the other registers it says
nothing but their width. It writes nothing of what stands outside the block (log entries 1, 8 and 10). -/
def Obligations.ResetEntersThePowerOnState : Prop :=
  ∀ s : State, ∃ t, exec .reset s = .next t ∧ t.ten = 0 ∧ t.cf = 0 ∧ t.mode = .idle ∧
    (∀ a, Memory.read t.pkt a = none) ∧ t.Fits ∧ t.cfg = s.cfg ∧ t.resp = s.resp ∧ t.trace = s.trace

/-- R109: PKTWR stores its byte at its index and changes nothing else; its two preconditions are tested in this order.
-/
def Obligations.PktwrStoresOneByte : Prop :=
  ∀ (s : State) (index : Nat) (byte : Byte),
    (s.cf = 1 → exec (.pktwr index byte) s = .refused .pktWriteWhileRunning) ∧
    (s.cf = 0 → s.cfg.cap ≤ index → exec (.pktwr index byte) s = .refused .pktIndexOutOfRange) ∧
    (s.cf = 0 → index < s.cfg.cap → ∃ t, exec (.pktwr index byte) s = .next t ∧
      Memory.read t.pkt index = some byte ∧ (∀ a, a ≠ index → Memory.read t.pkt a = Memory.read s.pkt a) ∧
      t = { s with pkt := t.pkt })

/-- R110: START writes PHASE, TONE, SIB, BITPOS, LENGTH, TEN and CF and nothing else; its preconditions on CF and A
are tested in this order, and a byte of the packet that was never written is refused by the LOADBYTE that would read
it. -/
def Obligations.StartBeginsATransmission : Prop :=
  ∀ (s : State) (a : Nat),
    (s.cf = 1 → exec (.start a) s = .refused .startWhileRunning) ∧
    (s.cf = 0 → s.cfg.cap < a → exec (.start a) s = .refused .lengthExceedsCapacity) ∧
    (s.cf = 0 → a ≤ s.cfg.cap → exec (.start a) s =
      .next { s with phase := 0, tone := 0, sib := 0, bitpos := 0, length := a, ten := 1, cf := 1 }) ∧
    (s.Inv → s.cf = 1 → s.bitpos ≠ s.length * 8 → s.sib = 0 → s.bitpos % 8 = 0 →
      Memory.read s.pkt (s.bitpos / 8) = none → exec .tick s = .refused .packetByteUnwritten)

/-! ## The micro-operations of TICK -/

/-- R71: DELTA. -/
def Obligations.DeltaMapsToneToIncrement : Prop :=
  ∀ c : Config, c.delta 0 = c.deltaMark ∧ c.delta 1 = c.deltaSpace ∧ ∀ t, c.delta t < c.period

/-- R72: ADVANCE adds the increment of the tone and wraps exactly at PERIOD: a sum below PERIOD is kept, a sum from
PERIOD on keeps the excess; nothing but PHASE is written. -/
def Obligations.AdvanceWrapsExactlyAtPeriod : Prop :=
  ∀ s : State, s.phase < s.cfg.period →
    advance s = { s with phase := (s.phase + s.cfg.delta s.tone) % s.cfg.period } ∧
    (s.phase + s.cfg.delta s.tone < s.cfg.period → (advance s).phase = s.phase + s.cfg.delta s.tone) ∧
    (s.cfg.period ≤ s.phase + s.cfg.delta s.tone → (advance s).phase = s.phase + s.cfg.delta s.tone - s.cfg.period)

/-- R73: DRIVE writes OUT, and nothing else, with bit W - 1 of PHASE: 1 where PHASE is at least half of PERIOD. -/
def Obligations.DriveTakesTheTopPhaseBit : Prop :=
  ∀ s : State, s.phase < s.cfg.period →
    drive s = { s with out := if s.cfg.period / 2 ≤ s.phase then 1 else 0 } ∧
    drive s = { s with out := bitAt (s.cfg.w - 1) s.phase }

/-- R81 to R84: FRAME loads the byte at BITPOS / 8 where BITPOS is a multiple of 8, else shifts CUR right by one with
a 0 entering; then it toggles TONE where bit 0 of the new CUR is 0 and holds it where it is 1. It writes nothing else.
-/
def Obligations.FrameFetchesOneBit : Prop :=
  ∀ s : State, s.bitpos < s.cfg.cap * 8 →
    (∀ b, s.bitpos % 8 = 0 → Memory.read s.pkt (s.bitpos / 8) = some b →
      frame s = .next { s with cur := b, tone := if b.toNat % 2 = 0 then s.tone ^^^ 1 else s.tone }) ∧
    (s.bitpos % 8 = 0 → Memory.read s.pkt (s.bitpos / 8) = none → frame s = .refused .packetByteUnwritten) ∧
    (s.bitpos % 8 ≠ 0 → ∃ t, frame s = .next t ∧ t.cur.toNat = s.cur.toNat / 2 ∧
      t = { s with cur := t.cur, tone := if t.cur.toNat % 2 = 0 then s.tone ^^^ 1 else s.tone })

/-- R96: COUNT, with no wrap of either counter in a run. -/
def Obligations.CountAdvancesOneSample : Prop :=
  ∀ s : State, s.sib < s.cfg.spb → s.bitpos < s.length * 8 → s.length ≤ s.cfg.cap →
    (s.sib + 1 = s.cfg.spb → count s = { s with sib := 0, bitpos := s.bitpos + 1 }) ∧
    (s.sib + 1 ≠ s.cfg.spb → count s = { s with sib := s.sib + 1 })

/-! ## TICK -/

/-- R92: a TICK performed while TEN = 0 changes nothing. -/
def Obligations.TickIsIgnoredWhileTimerStopped : Prop := ∀ s : State, s.ten = 0 → exec .tick s = .next s

/-- R93: step 1 performs STOP exactly where BITPOS equals LENGTH x 8; STOP clears TEN and CF and writes nothing else,
and a tick that passes the test clears neither. -/
def Obligations.EndTestStopsTheRun : Prop :=
  ∀ s : State, s.ten = 1 →
    (s.bitpos = s.length * 8 → exec .tick s = .next { s with ten := 0, cf := 0 }) ∧
    (s.bitpos ≠ s.length * 8 → ∀ t, exec .tick s = .next t → t.ten = 1 ∧ t.cf = s.cf)

/-- R91, R94 to R97: a tick inside a baud interval performs no FRAME: it leaves CUR and TONE, advances the phase,
drives the pin with the phase just computed, and counts. -/
def Obligations.TickWithinABaudInterval : Prop :=
  ∀ s : State, s.Inv → s.cf = 1 → s.bitpos ≠ s.length * 8 → s.sib ≠ 0 → ∃ t, exec .tick s = .next t ∧
    t.phase = (s.phase + s.cfg.delta s.tone) % s.cfg.period ∧ t.out = bitAt (s.cfg.w - 1) t.phase ∧
    (t.sib, t.bitpos) = (if s.sib + 1 = s.cfg.spb then (0, s.bitpos + 1) else (s.sib + 1, s.bitpos)) ∧
    t = { s with phase := t.phase, out := t.out, sib := t.sib, bitpos := t.bitpos }

/-- R91, R82, R84, R97: the first tick of a baud interval at a byte boundary loads the byte, lets its bit 0 decide the
tone, and advances the phase with the tone just decided. -/
def Obligations.TickLoadsAByte : Prop :=
  ∀ (s : State) (b : Byte), s.Inv → s.cf = 1 → s.bitpos ≠ s.length * 8 → s.sib = 0 → s.bitpos % 8 = 0 →
    Memory.read s.pkt (s.bitpos / 8) = some b → ∃ t, exec .tick s = .next t ∧
    t.cur = b ∧ t.tone = (if b.toNat % 2 = 0 then s.tone ^^^ 1 else s.tone) ∧
    t.phase = (s.phase + s.cfg.delta t.tone) % s.cfg.period ∧ t.out = bitAt (s.cfg.w - 1) t.phase ∧
    (t.sib, t.bitpos) = (if s.cfg.spb = 1 then (0, s.bitpos + 1) else (1, s.bitpos)) ∧
    t = { s with cur := t.cur, tone := t.tone, phase := t.phase, out := t.out, sib := t.sib, bitpos := t.bitpos }

/-- R91, R83, R84, R97: the first tick of a baud interval inside a byte shifts CUR, lets the bit that arrives at bit 0
decide the tone, and advances the phase with the tone just decided. -/
def Obligations.TickShiftsTheByte : Prop :=
  ∀ s : State, s.Inv → s.cf = 1 → s.bitpos ≠ s.length * 8 → s.sib = 0 → s.bitpos % 8 ≠ 0 →
    ∃ t, exec .tick s = .next t ∧
    t.cur = s.cur >>> 1 ∧ t.tone = (if s.cur.toNat / 2 % 2 = 0 then s.tone ^^^ 1 else s.tone) ∧
    t.phase = (s.phase + s.cfg.delta t.tone) % s.cfg.period ∧ t.out = bitAt (s.cfg.w - 1) t.phase ∧
    (t.sib, t.bitpos) = (if s.cfg.spb = 1 then (0, s.bitpos + 1) else (1, s.bitpos)) ∧
    t = { s with cur := t.cur, tone := t.tone, phase := t.phase, out := t.out, sib := t.sib, bitpos := t.bitpos }

/-- R75 (which the spec derives from R72 and R110): no operation but START and RESET, and no change of tone, moves
PHASE other than by the one addition of ADVANCE: a sample tick adds the increment of the tone after its FRAME, every
other tick and every other operation keeps it. -/
def Obligations.PhaseIsContinuous : Prop :=
  ∀ (i : Instr) (s t : State), s.Fits → exec i s = .next t →
    (i = .tick → s.ten = 1 → s.bitpos ≠ s.length * 8 → t.phase = (s.phase + s.cfg.delta t.tone) % s.cfg.period) ∧
    (i = .tick → s.ten = 0 ∨ s.bitpos = s.length * 8 → t.phase = s.phase) ∧
    (∀ a, i = .start a → t.phase = 0) ∧
    (i ≠ .tick → i ≠ .reset → (∀ a, i ≠ .start a) → t.phase = s.phase)

/-! ## Who writes what -/

/-- R29, R36, R43: the frame of every operation. That the configuration, POLL's answer and the words to come are fields
of the state, and so have a frame, is the model's choice (log entries 1, 10 and 8; R28 a, R63). The configuration and the words still to come are written by none; a
TICK writes neither LENGTH nor PKT; POLL and NOP write nothing of the block; PKTWR writes one byte; START writes
neither CUR nor OUT nor PKT; only RESET and PKTWR change what a byte of PKT reads as; only POLL answers. -/
def Obligations.OperationsWriteOnlyTheirOwnState : Prop :=
  ∀ (i : Instr) (s t : State), exec i s = .next t →
    t.cfg = s.cfg ∧ t.trace = s.trace ∧ (i ≠ .poll → t.resp = s.resp) ∧
    (i = .nop → t = s) ∧
    (i = .poll → t = { s with resp := t.resp }) ∧
    (i = .tick → t = { s with phase := t.phase, tone := t.tone, cur := t.cur, sib := t.sib, bitpos := t.bitpos,
                              out := t.out, cf := t.cf, ten := t.ten } ∧
      ∀ a, Memory.read t.pkt a = Memory.read s.pkt a) ∧
    (∀ n, i = .start n → t = { s with phase := t.phase, tone := t.tone, sib := t.sib, bitpos := t.bitpos,
                                      length := t.length, cf := t.cf, ten := t.ten } ∧
      ∀ a, Memory.read t.pkt a = Memory.read s.pkt a) ∧
    (∀ index byte, i = .pktwr index byte → t = { s with pkt := t.pkt } ∧
      ∀ a, a ≠ index → Memory.read t.pkt a = Memory.read s.pkt a)

/-- R29, by agent and mode (which agent performs an operation is a convention, log entry 13): while RUNNING the
foreground changes nothing of the block; while IDLE the interrupt context changes nothing; whatever the mode the
foreground writes neither CUR nor OUT, and the interrupt context neither LENGTH nor PKT, nor the answer of POLL
(log entry 10). -/
def Obligations.AgentsKeepTheirAccessRights : Prop :=
  ∀ (i : Instr) (s t : State), exec i s = .next t →
    (i.agent = .fg → s.mode = .running → t = { s with resp := t.resp }) ∧
    (i.agent = .irq → s.ten = 0 → t = s) ∧
    (i.agent = .fg → t.cur = s.cur ∧ t.out = s.out) ∧
    (i.agent = .irq → t.length = s.length ∧ t.pkt = s.pkt ∧ t.resp = s.resp)

/-! ## Modes, flags and violations -/

/-- R98: the state machine, one clause per row of its table. A sample tick whose LOADBYTE finds a byte never written
is refused (U3), so its row speaks of a tick that answers. -/
def Obligations.ModeTableHolds : Prop :=
  ∀ s : State, s.Inv →
    (s.mode = .idle →
      exec .nop s = .next s ∧
      (∃ t, exec .reset s = .next t ∧ t.mode = .idle) ∧
      (∀ index byte, index < s.cfg.cap → ∃ t, exec (.pktwr index byte) s = .next t ∧ t.mode = .idle ∧
        Memory.read t.pkt index = some byte) ∧
      (∀ a, a ≤ s.cfg.cap → ∃ t, exec (.start a) s = .next t ∧ t.mode = .running ∧
        t.phase = 0 ∧ t.tone = 0 ∧ t.sib = 0 ∧ t.bitpos = 0 ∧ t.ten = 1 ∧ t.cf = 1) ∧
      exec .tick s = .next s ∧
      exec .poll s = .next { s with resp := some 0 }) ∧
    (s.mode = .running →
      exec .nop s = .next s ∧
      (∃ t, exec .reset s = .next t ∧ t.mode = .idle) ∧
      (∀ index byte, exec (.pktwr index byte) s = .refused .pktWriteWhileRunning) ∧
      (∀ a, exec (.start a) s = .refused .startWhileRunning) ∧
      (s.bitpos ≠ s.length * 8 → ∀ t, exec .tick s = .next t → t.mode = .running ∧ t.samplesDone = s.samplesDone + 1) ∧
      (s.bitpos = s.length * 8 → ∃ t, exec .tick s = .next t ∧ t.mode = .idle) ∧
      exec .poll s = .next { s with resp := some 1 })

/-- R26 (which the spec derives from R20 and R21): CF = TEN before and after every operation; RESET and STOP write
both to 0, START both to 1, and no other operation writes either. -/
def Obligations.FlagEqualsTimerEnable : Prop :=
  (∀ c, (State.resetOf c).cf = (State.resetOf c).ten) ∧
  ∀ (i : Instr) (s t : State), s.cf = s.ten → exec i s = .next t →
    t.cf = t.ten ∧
    (i = .reset → t.cf = 0 ∧ t.ten = 0) ∧
    (∀ a, i = .start a → t.cf = 1 ∧ t.ten = 1) ∧
    (i = .tick → s.ten = 1 → s.bitpos = s.length * 8 → t.cf = 0 ∧ t.ten = 0) ∧
    (i ≠ .reset → (∀ a, i ≠ .start a) → ¬(i = .tick ∧ s.ten = 1 ∧ s.bitpos = s.length * 8) →
      t.cf = s.cf ∧ t.ten = s.ten)

/-- R124, R130: an operation is refused exactly where it breaks a precondition, under the name of the first it tests.
-/
def Obligations.RefusedExactlyOnAViolation : Prop :=
  ∀ (i : Instr) (s : State) (r : Refusal), s.Inv → (exec i s = .refused r ↔ violation i s = some r)

/-- R123, R50: no operation raises a fault in a state that keeps the ranges of R25, and every operation whose
preconditions hold completes. -/
def Obligations.PermittedOperationsComplete : Prop :=
  ∀ (i : Instr) (s : State), s.Inv → (∀ f, exec i s ≠ .fault f) ∧ (violation i s = none → ∃ t, exec i s = .next t)

/-- R50 (which the spec derives from R25 and R93): no access of a run leaves the packet: wherever a TICK passes the
end test, the byte index is BITPOS / 8 and lies below LENGTH, and so below CAP. -/
def Obligations.AccessesStayInsideThePacket : Prop :=
  ∀ s : State, s.Inv → s.cf = 1 → s.bitpos ≠ s.length * 8 →
    s.byteIndex = s.bitpos / 8 ∧ s.byteIndex < s.length ∧ s.byteIndex < s.cfg.cap

/-- R35: an index at or above CAP does not exist; in the states, which no run reaches, where a LOADBYTE would read
one, the model faults (the model's choice, log entry 7). -/
def Obligations.AbsentIndexFaults : Prop :=
  ∀ s : State, s.ten = 1 → s.bitpos ≠ s.length * 8 → s.sib = 0 → s.bitpos % 8 = 0 → s.bitpos < 2 ^ s.cfg.bw →
    s.cfg.cap ≤ s.bitpos / 8 → exec .tick s = .fault (.packetIndexAbsent (s.bitpos / 8))

/-! ## Invariants -/

/-- R31, R152: the state after reset is IDLE with the timer stopped and every byte of PKT unwritten, and has the
invariant and no word to come; whatever the configuration. The 0 of the other registers is the model's choice (log
entry 4); this says of them only that they fit their widths. -/
def Obligations.ResetStateHasTheInvariant : Prop :=
  (∃ c, State.reset = State.resetOf c) ∧
  ∀ c, (State.resetOf c).RunInv ∧ (State.resetOf c).cf = 0 ∧ (State.resetOf c).ten = 0 ∧
    (State.resetOf c).mode = .idle ∧ (∀ a, Memory.read (State.resetOf c).pkt a = none) ∧ (State.resetOf c).trace = [] ∧
    (State.resetOf c).cfg = c

/-- R25, R26, R103: every step keeps the widths, CF = TEN, the canonical form of the packet buffer and, in mode
RUNNING, the ranges of SIB, BITPOS and LENGTH. -/
def Obligations.StepKeepsTheRanges : Prop := ∀ s t : State, s.Inv → step s = .next t → t.Inv

/-- R105, R87, R75 (derived by the spec from the rules of TICK and START): every step keeps the closed form of the run
in progress: the tone is the parity of the 0 bits consumed, PHASE is P(t) after t samples, OUT is its top bit, and CUR
is the byte in flight shifted to the bit consumed. -/ def Obligations.StepKeepsTheClosedForm : Prop := ∀ s t : State,
s.RunInv → step s = .next t → t.RunInv /-! ## Runs -/

/-- R99 (which the spec derives from R91, R93, R96 and R110): a run begun by START n, with its preconditions met, has
exactly 8 x n x SPB sample ticks, each of which performs ADVANCE, DRIVE and COUNT once, and then one final tick, which
performs STOP. After k sample ticks the position is k samples into the packet, and tick k used the tone of baud
interval (k - 1) / SPB; further ticks change nothing. -/
def Obligations.RunHasExactlyItsTicks : Prop :=
  ∀ (s : State) (n : Nat), s.Inv → s.cf = 0 → n ≤ s.cfg.cap → s.Written n → ∃ u, exec (.start n) s = .next u ∧
    (∀ k ≤ 8 * n * s.cfg.spb, ∃ t, ticks k u = .next t ∧ t.cf = 1 ∧ t.ten = 1 ∧ t.sib = k % s.cfg.spb ∧
      t.bitpos = k / s.cfg.spb ∧ (0 < k → t.tone = toneAfter s.pkt ((k - 1) / s.cfg.spb + 1)) ∧
      (k < 8 * n * s.cfg.spb → ∃ f, f = { t with cur := f.cur, tone := f.tone } ∧
        exec .tick t = .next (count (drive (advance f)))) ∧
      (k = 8 * n * s.cfg.spb → exec .tick t = .next (stopRun t))) ∧
    (∀ k, 8 * n * s.cfg.spb < k → ∃ t, ticks k u = .next t ∧ t.cf = 0 ∧ t.ten = 0 ∧
      ticks (8 * n * s.cfg.spb + 1) u = .next t)

/-- R102 (which the spec derives from R99, R75 and R87): the state after the final tick of a run begun by START n. The
tone is the parity of the packet's 0 bits; m and s are the sample ticks in mark and in space. -/
def Obligations.FinalStateOfARun : Prop :=
  ∀ (s : State) (n : Nat), s.Inv → s.cf = 0 → n ≤ s.cfg.cap → s.Written n → ∃ u t, exec (.start n) s = .next u ∧
    ticks (8 * n * s.cfg.spb + 1) u = .next t ∧
    t.cf = 0 ∧ t.ten = 0 ∧ t.mode = .idle ∧ t.bitpos = 8 * n ∧ t.sib = 0 ∧ t.length = n ∧
    (t.tone = if zeroBits s.pkt (8 * n) % 2 = 0 then 0 else 1) ∧
    (∃ m sp, m = s.cfg.spb * (List.range (8 * n)).countP (fun i => zeroBits s.pkt (i + 1) % 2 = 0) ∧
      sp = s.cfg.spb * (List.range (8 * n)).countP (fun i => zeroBits s.pkt (i + 1) % 2 = 1) ∧
      m + sp = 8 * n * s.cfg.spb ∧ t.phase = (m * s.cfg.deltaMark + sp * s.cfg.deltaSpace) % s.cfg.period) ∧
    (n = 0 → t.out = s.out ∧ t.cur = s.cur) ∧
    (0 < n → t.out = bitAt (s.cfg.w - 1) t.phase ∧
      (Memory.read s.pkt (n - 1)).map (fun (b : Byte) => (b >>> 7 : Byte)) = some t.cur) ∧
    t.pkt = s.pkt

/-- R105 (which the spec derives from R99, R75 and R84): the output trace. After sample tick k the pin shows the top
bit of P(k), and the tone is that of baud interval (k - 1) / SPB. -/
def Obligations.OutputTraceIsTheClosedForm : Prop :=
  ∀ (s : State) (n : Nat), s.Inv → s.cf = 0 → n ≤ s.cfg.cap → s.Written n → ∃ u, exec (.start n) s = .next u ∧
    ∀ k, 1 ≤ k → k ≤ 8 * n * s.cfg.spb → ∃ t, ticks k u = .next t ∧
      t.phase = phaseAfter s.cfg s.pkt k ∧ t.out = bitAt (s.cfg.w - 1) (phaseAfter s.cfg s.pkt k) ∧
      t.tone = toneAfter s.pkt ((k - 1) / s.cfg.spb + 1)

/-- R114 (which the spec derives from R110 and R93): a packet of length 0 emits no sample: START 0 and one TICK leave
PHASE at 0 and OUT, CUR and PKT as they were, with CF and TEN cleared. No byte need have been written. -/
def Obligations.EmptyPacketEmitsNothing : Prop :=
  ∀ s : State, s.cf = 0 → ∃ u, exec (.start 0) s = .next u ∧ u.cf = 1 ∧ u.ten = 1 ∧
    exec .tick u = .next { s with phase := 0, tone := 0, sib := 0, bitpos := 0, length := 0, cf := 0, ten := 0 }

/-- R115 (which the spec derives from R110 and R105): START leaves PHASE, TONE, SIB and BITPOS at 0 and LENGTH at n,
whatever they held; two runs of the same length over packets with the same first n bytes go alike, tick by tick,
whatever the states they start from held in PHASE, TONE, CUR, SIB, BITPOS, LENGTH and OUT; from the first sample on
CUR and OUT agree too. -/
def Obligations.RunDependsOnThePacketAlone : Prop :=
  ∀ (s s' : State) (n k : Nat) (u u' : State), s.cfg = s'.cfg → (∀ j < n, Memory.read s.pkt j = Memory.read s'.pkt j) →
    exec (.start n) s = .next u → exec (.start n) s' = .next u' →
    (u.phase = 0 ∧ u.tone = 0 ∧ u.sib = 0 ∧ u.bitpos = 0 ∧ u.length = n) ∧
    ∀ t, ticks k u = .next t → ∃ t', ticks k u' = .next t' ∧ t.phase = t'.phase ∧ t.tone = t'.tone ∧ t.sib = t'.sib ∧
      t.bitpos = t'.bitpos ∧ t.length = t'.length ∧ t.cf = t'.cf ∧ t.ten = t'.ten ∧
      (0 < n → 0 < k → t.out = t'.out ∧ t.cur = t'.cur)

/-- R105, R111: how POLLs and NOPs are interleaved with the TICKs of a run makes no difference to the block: the
sequence without them, and the sequence with them, leave states that differ in the foreground's answer alone (log
entry 10), and stop alike. -/
def Obligations.PollsAndNopsDoNotDisturbARun : Prop :=
  ∀ (ops : List Instr) (s : State), ops.all passiveOp = true →
    (∀ t, execAll (ops.filter (· = .tick)) s = .next t → ∃ r, execAll ops s = .next { t with resp := r }) ∧
    (∀ t, execAll ops s = .next t → execAll (ops.filter (· = .tick)) s = .next { t with resp := s.resp }) ∧
    (∀ r, execAll (ops.filter (· = .tick)) s = .refused r ↔ execAll ops s = .refused r)

/-- R165, D21: as many timer events as the run still needs end it, whatever POLLs and NOPs come between. The bound is
the TICKs the environment has yet to present (log entries 8 and 17): nothing but the timer ends a run. -/
def Obligations.RunEndsWhenItsTicksArrive : Prop :=
  ∀ s : State, s.Inv → s.cf = 1 → s.Written s.length → s.TracePassive → s.ticksNeeded ≤ s.ticksToCome →
    ∃ t, steps s.trace.length s = .next t ∧ t.cf = 0 ∧ t.ten = 0 ∧ t.trace = []

/-- R165, R125: fewer timer events than the run still needs leave it in progress: the block has no timeout. The words to
come are log entry 8. -/
def Obligations.RunDoesNotEndWithoutItsTicks : Prop :=
  ∀ s t : State, s.Inv → s.cf = 1 → s.TracePassive → s.ticksToCome < s.ticksNeeded →
    steps s.trace.length s = .next t → t.cf = 1 ∧ t.ten = 1

/-- R131: RESET presented together with another operation comes after it, and the block is in the reset state of R31
whatever the other was, one that is refused or faults too (the pins are log entry 15). Strobes other than `rst` are
never two at once (R67). -/
def Obligations.ResetWinsOverOtherStrobes : Prop :=
  ∀ (p : Pins) (s : State),
    (pinsLawful s.cfg p = true → (pinsStrobes p).length ≤ 1) ∧
    (p.rst = false → execPins p s = execAll (pinsStrobes p) s) ∧
    (p.rst = true →
      (∃ t, execPins p s = .next t ∧ t.cf = 0 ∧ t.ten = 0 ∧ t.mode = .idle ∧ (∀ a, Memory.read t.pkt a = none) ∧
        t.Fits) ∧
      pinsOperations p = pinsStrobes p ++ [.reset] ∧
      (∀ u, execAll (pinsStrobes p) s = .next u →
        execPins p s = exec .reset u ∧ execPins p s = execAll (pinsOperations p) s) ∧
      ((∀ u, execAll (pinsStrobes p) s ≠ .next u) → execPins p s = exec .reset s))

/-! ## The written form -/

/-- R66: what the pseudo-instructions stand for. That each is expanded in the state s in which it is reached is read
from the rule (log entry 12). RUN is TICK until a TICK leaves TEN = 0: one TICK where the timer is stopped; in a run
whose packet is written, as many as the run still needs, each but the last leaving TEN = 1; nothing finite where a
TICK of the run is refused. WAIT is the one POLL that returns 0, and stands for nothing finite while CF is 1. TRANSMIT
n is START n, RUN and WAIT: 8 x n x SPB + 1 TICKs (R99, which the spec derives from R91, R93, R96 and R110) between
the START and the POLL, and where the START is refused, the RUN and the WAIT of the state as it was. -/
def Obligations.PseudoInstructionsExpandAsWritten : Prop :=
  ∀ s : State, s.Inv →
    (∀ n, expandPseudo s (.ticks n) = some (List.replicate n .tick)) ∧
    expandPseudo s .baud = some (List.replicate s.cfg.spb .tick) ∧
    (∀ bytes, ∃ ops, expandPseudo s (.load bytes) = some ops ∧ ops.length = bytes.length ∧
      ∀ j, ops[j]? = bytes[j]?.map (fun b => Instr.pktwr j b)) ∧
    (s.cf = 0 → expandPseudo s .run = some [.tick]) ∧
    (s.cf = 1 → s.Written s.length → expandPseudo s .run = some (List.replicate s.ticksNeeded .tick) ∧
      (∃ t, ticks s.ticksNeeded s = .next t ∧ t.ten = 0) ∧
      ∀ k < s.ticksNeeded, ∃ t, ticks k s = .next t ∧ t.ten = 1) ∧
    (∀ k r, ticks k s = .refused r → expandPseudo s .run = none) ∧
    (s.cf = 0 → expandPseudo s .wait = some [.poll]) ∧
    (s.cf = 1 → expandPseudo s .wait = none) ∧
    (∀ n, s.cf = 0 → n ≤ s.cfg.cap → s.Written n → expandPseudo s (.transmit n) =
      some (.start n :: (List.replicate (8 * n * s.cfg.spb + 1) .tick ++ [.poll]))) ∧
    (∀ n, s.cf = 0 → s.cfg.cap < n → expandPseudo s (.transmit n) = some [.start n, .tick, .poll]) ∧
    (∀ n, s.cf = 1 → s.Written s.length → expandPseudo s (.transmit n) =
      some (.start n :: (List.replicate s.ticksNeeded .tick ++ [.poll]))) ∧
    (∀ n u k r, exec (.start n) s = .next u → ticks k u = .refused r → expandPseudo s (.transmit n) = none)

/-- R66: a RUN that comes after some TICKs of a run has that many TICKs less: START n, k TICKs and RUN are 8 x n x SPB
+ 1 TICKs in all, for every k of sample ticks of the run. That each line is expanded in the state that those before it
leave is read from the rule (log entry 12), and the count is R99, which the spec derives from R91, R93, R96 and R110.
-/
def Obligations.RunCountsTheTicksBeforeIt : Prop :=
  ∀ (s : State) (n k : Nat), s.Inv → s.cf = 0 → n ≤ s.cfg.cap → s.Written n → k ≤ 8 * n * s.cfg.spb →
    expandTrace [.command (.start n), .pseudo (.ticks k), .pseudo .run] s =
      some (encode (.start n) :: (List.replicate k (encode .tick) ++
        List.replicate (8 * n * s.cfg.spb + 1 - k) (encode .tick)))

/-- R66, R124: a trace is its lines, whatever they answer: commands written as words stand for exactly these words,
and a line that is refused is kept, is reported, leaves the state as it was, and is followed by the lines after it as
if it had not been there (read from D16 and program P7 of 95_test_vectors.md; log entries 12 and 14). -/
def Obligations.RefusedLinesAreKept : Prop :=
  (∀ (ws : List Word) (s : State), expandTrace (ws.map .word) s = some ws) ∧
  ∀ (s : State) (w : Word) (r : Refusal), performWord w s = .refused r →
    leaveAll performWord [w] s = s ∧
    (∀ rest, expandTrace (.word w :: rest) s = (expandTrace rest s).map (w :: ·)) ∧
    (∀ i rest, i.wellFormed = true → w = encode i →
      expandTrace (.command i :: rest) s = (expandTrace rest s).map (w :: ·)) ∧
    ∀ ws, outcomes (w :: ws) s = .refused r :: outcomes ws s
end

