-- ==== Sys2Proof/Laws/Bits.lean ====
section
/-!
SUPPORT. The laws of the notation of 00_scope.md R10 and of the widths that follow from a configuration.
-/
namespace Sys2Proof

theorem trunc_lt (n v : Nat) : trunc n v < 2 ^ n := Nat.mod_lt _ (Nat.two_pow_pos n)

theorem trunc_of_lt {n v : Nat} (h : v < 2 ^ n) : trunc n v = v := Nat.mod_eq_of_lt h

@[simp] theorem trunc_zero (n : Nat) : trunc n 0 = 0 := Nat.zero_mod _

theorem bitAt_eq (i v : Nat) : bitAt i v = if v / 2 ^ i % 2 = 1 then 1 else 0 := by
  unfold bitAt
  rw [Nat.testBit_eq_decide_div_mod_eq]
  by_cases h : v / 2 ^ i % 2 = 1 <;> simp [h]

/-- The lowest bit is 0 exactly in an even number. -/
theorem bitAt_zero_eq_zero_iff (v : Nat) : bitAt 0 v = 0 ↔ v % 2 = 0 := by
  rw [bitAt_eq]
  split <;> simp_all

/-- A top slice of a value that fits is a quotient. -/
theorem slice_top {hi lo v : Nat} (h : lo ≤ hi) (hv : v < 2 ^ (hi + 1)) : slice hi lo v = v / 2 ^ lo := by
  refine Nat.mod_eq_of_lt (Nat.div_lt_of_lt_mul ?_)
  rwa [← pow_add, show lo + (hi + 1 - lo) = hi + 1 by omega]

/-- The low three bits are the remainder by 8. -/
theorem slice_low_three (v : Nat) : slice 2 0 v = v % 8 := by simp [slice]

/-- The least power of two from n on. -/
theorem le_two_pow_ceilLog2 (n : Nat) : n ≤ 2 ^ ceilLog2 n := by
  unfold ceilLog2
  split
  · omega
  · have := Nat.lt_log2_self (n := n - 1)
    omega

/-- PERIOD is a power of two, so it is positive. -/
theorem Config.period_pos (c : Config) : 0 < c.period := Nat.two_pow_pos _

theorem Config.w_pos (c : Config) : 0 < c.w := by unfold Config.w Config.fractionBits; omega

theorem Config.spb_pos (c : Config) : 0 < c.spb := c.ok.2.2.2.1

theorem Config.cap_pos (c : Config) : 0 < c.cap := c.ok.2.2.2.2.2.2.1

/-- SIB's width holds every value below SPB, and SPB - 1 in particular (00_scope.md R6). -/
theorem Config.spb_le_two_pow_sw (c : Config) : c.spb ≤ 2 ^ c.sw :=
  (le_two_pow_ceilLog2 c.spb).trans (Nat.pow_le_pow_right (by decide) (le_max_right _ _))

/-- A length within the capacity fits LENGTH. -/
theorem Config.cap_lt_two_pow_lw (c : Config) : c.cap < 2 ^ c.lw := by
  have h := c.ok.2.2.2.2.2.2.2
  have := Nat.two_pow_pos c.lw
  omega

/-- A position within the buffer fits BITPOS, the end position included: BITPOS never wraps (10_state.md R18). -/
theorem Config.bits_lt_two_pow_bw (c : Config) {n : Nat} (h : n ≤ c.cap * 8) : n < 2 ^ c.bw := by
  have := c.cap_lt_two_pow_lw
  rw [Config.bw, pow_add]
  omega

/-- An increment is below PERIOD (R7). -/
theorem Config.delta_lt_period (c : Config) (t : Bit) : c.delta t < c.period := by
  unfold Config.delta
  split
  · exact c.ok.2.1
  · exact c.ok.2.2.1

end Sys2Proof
end

