-- ==== Sys2Proof/Laws/Decode.lean ====
section
/-!
SUPPORT. The laws of the command word: its fields, what the decoder can answer, and which words each row of the opcode
table matches.
-/
namespace Sys2Proof

/-- The four fields are the whole word, each within its width (30_encoding.md R59). -/
theorem word_fields (w : Word) :
    w.toNat = w.op * 2 ^ 28 + w.zero * 2 ^ 24 + w.a * 2 ^ 8 + w.b.toNat ∧ w.op < 16 ∧ w.zero < 16 ∧ w.a < 65536 := by
  have := w.isLt
  simp only [Word.op, Word.zero, Word.a, Word.b, slice, BitVec.toNat_ofNat]
  omega

/-- Field B is 0 exactly where its number is. -/
theorem byte_eq_zero_iff (b : Byte) : b = 0 ↔ b.toNat = 0 := BitVec.toNat_inj.symm

/-- The fields of a packed word are the fields packed. -/
theorem packFields_fields {op a : Nat} {b : Byte} (ho : op < 16) (ha : a < 65536) :
    Word.op (packFields op a b.toNat) = op ∧ Word.zero (packFields op a b.toNat) = 0 ∧
      Word.a (packFields op a b.toNat) = a ∧ Word.b (packFields op a b.toNat) = b := by
  have hb := b.isLt
  have e : (packFields op a b.toNat).toNat = op * 2 ^ 28 + a * 2 ^ 8 + b.toNat := by
    simp only [packFields, BitVec.toNat_ofNat]
    omega
  refine ⟨?_, ?_, ?_, BitVec.eq_of_toNat_eq ?_⟩ <;>
    simp only [Word.op, Word.zero, Word.a, Word.b, slice, e, BitVec.toNat_ofNat] <;> omega

/-- What the decoder can answer as an instruction, with the fields of the word (R61). -/
theorem decode_ok {w : Word} {i : Instr} (h : decode w = .ok i) : w.zero = 0 ∧
    ((i = .nop ∧ w.op = 0 ∧ w.a = 0 ∧ w.b = 0) ∨ (i = .reset ∧ w.op = 1 ∧ w.a = 0 ∧ w.b = 0) ∨
      (i = .pktwr w.a w.b ∧ w.op = 2) ∨ (i = .start w.a ∧ w.op = 3 ∧ w.b = 0) ∨
      (i = .tick ∧ w.op = 4 ∧ w.a = 0 ∧ w.b = 0) ∨ (i = .poll ∧ w.op = 5 ∧ w.a = 0 ∧ w.b = 0)) := by
  unfold decode decodePlain at h
  split_ifs at h <;> simp_all

/-- What the decoder answers where the fields are those of an operation (R61). -/
theorem decode_of_fields {w : Word} (hz : w.zero = 0) :
    (w.op = 0 → w.a = 0 → w.b = 0 → decode w = .ok .nop) ∧ (w.op = 1 → w.a = 0 → w.b = 0 → decode w = .ok .reset) ∧
      (w.op = 2 → decode w = .ok (.pktwr w.a w.b)) ∧ (w.op = 3 → w.b = 0 → decode w = .ok (.start w.a)) ∧
      (w.op = 4 → w.a = 0 → w.b = 0 → decode w = .ok .tick) ∧
      (w.op = 5 → w.a = 0 → w.b = 0 → decode w = .ok .poll) := by
  refine ⟨?_, ?_, ?_, ?_, ?_, ?_⟩ <;> intros <;> simp [decode, decodePlain, *]

theorem and_high_byte (w : Word) {p : Nat} (hp : p < 256) :
    w &&& (0xFF000000 : Word) = BitVec.ofNat 32 (p * 2 ^ 24) ↔ w.toNat / 2 ^ 24 = p := by
  have h : w &&& (0xFF000000 : Word) = (w >>> 24) <<< 24 := by
    ext i hi
    interval_cases i <;> simp
  have := w.isLt
  rw [h, ← BitVec.toNat_inj]
  simp only [BitVec.toNat_shiftLeft, BitVec.toNat_ushiftRight, BitVec.toNat_ofNat, Nat.shiftLeft_eq,
    Nat.shiftRight_eq_div_pow]
  omega

theorem and_high_and_low_byte (w : Word) {p : Nat} (hp : p < 256) :
    w &&& (0xFF0000FF : Word) = BitVec.ofNat 32 (p * 2 ^ 24) ↔ w.toNat / 2 ^ 24 = p ∧ w.toNat % 256 = 0 := by
  have h : w &&& (0xFF0000FF : Word) = (w >>> 24) <<< 24 ||| (w.setWidth 8).setWidth 32 := by
    ext i hi
    interval_cases i <;> simp
  have hd : (w >>> 24) <<< 24 &&& (w.setWidth 8).setWidth 32 = 0#32 := by
    ext i hi
    interval_cases i <;> simp
  have := w.isLt
  rw [h, ← BitVec.add_eq_or_of_and_eq_zero _ _ hd, ← BitVec.toNat_inj]
  simp only [BitVec.toNat_add, BitVec.toNat_shiftLeft, BitVec.toNat_ushiftRight, BitVec.toNat_ofNat,
    BitVec.toNat_setWidth, Nat.shiftLeft_eq, Nat.shiftRight_eq_div_pow]
  omega

/-- Which words each row of the opcode table matches, by the fields (R61). -/
theorem row_matches (w : Word) :
    (w &&& (0xFFFFFFFF : Word) = 0x00000000 ↔ w.zero = 0 ∧ w.op = 0 ∧ w.a = 0 ∧ w.b = 0) ∧
      (w &&& (0xFFFFFFFF : Word) = 0x10000000 ↔ w.zero = 0 ∧ w.op = 1 ∧ w.a = 0 ∧ w.b = 0) ∧
      (w &&& (0xFF000000 : Word) = 0x20000000 ↔ w.zero = 0 ∧ w.op = 2) ∧
      (w &&& (0xFF0000FF : Word) = 0x30000000 ↔ w.zero = 0 ∧ w.op = 3 ∧ w.b = 0) ∧
      (w &&& (0xFFFFFFFF : Word) = 0x40000000 ↔ w.zero = 0 ∧ w.op = 4 ∧ w.a = 0 ∧ w.b = 0) ∧
      (w &&& (0xFFFFFFFF : Word) = 0x50000000 ↔ w.zero = 0 ∧ w.op = 5 ∧ w.a = 0 ∧ w.b = 0) := by
  obtain ⟨e, ho, hz, ha⟩ := word_fields w
  have hb := w.b.isLt
  have ones : w &&& (0xFFFFFFFF : Word) = w := BitVec.and_allOnes
  have h2 := and_high_byte w (p := 0x20) (by decide)
  have h3 := and_high_and_low_byte w (p := 0x30) (by decide)
  rw [ones, byte_eq_zero_iff]
  have whole : ∀ p : Nat, p < 16 → (w = BitVec.ofNat 32 (p * 2 ^ 28) ↔
      w.zero = 0 ∧ w.op = p ∧ w.a = 0 ∧ w.b.toNat = 0) := fun p hp => by
    rw [← BitVec.toNat_inj, BitVec.toNat_ofNat]
    omega
  exact ⟨whole 0 (by decide), whole 1 (by decide), h2.trans (by omega), h3.trans (by omega), whole 4 (by decide),
    whole 5 (by decide)⟩

end Sys2Proof
end

