-- ==== Sys2Proof/Laws/Memory.lean ====
section
/-!
SUPPORT. The laws of the packet buffer: what a read after a write gives, and that every memory operation keeps the
canonical form.
-/
namespace Sys2Proof.Machine

@[simp] theorem Memory.read_nil (a : Nat) : Memory.read [] a = none := rfl

theorem Memory.read_cons (cell : Host.Cell) (rest : Memory) (a : Nat) :
    Memory.read (cell :: rest) a = if cell.1 = a then some cell.2 else Memory.read rest a := rfl

/-- A read after a write to the same index gives the byte written. -/
@[simp] theorem Memory.read_write_same (m : Memory) (a : Nat) (b : Byte) :
    Memory.read (Memory.write m a b) a = some b := by
  induction m with
  | nil => simp [Memory.write, Memory.read]
  | cons cell rest ih =>
    simp only [Memory.write]
    split_ifs with h1 h2
    · simp [Memory.read_cons]
    · simp [Memory.read_cons]
    · rw [Memory.read_cons, if_neg (Ne.symm h2), ih]

/-- A write leaves every other index alone. -/
theorem Memory.read_write_other (m : Memory) {a c : Nat} (b : Byte) (h : c ≠ a) :
    Memory.read (Memory.write m a b) c = Memory.read m c := by
  induction m with
  | nil => simp [Memory.write, Memory.read, h.symm]
  | cons cell rest ih =>
    simp only [Memory.write]
    split_ifs with h1 h2
    · simp [Memory.read_cons, h.symm]
    · subst h2
      simp [Memory.read_cons, h.symm]
    · rw [Memory.read_cons, Memory.read_cons, ih]

/-- What a write lists: the cell written, and cells that were listed before. -/
theorem Memory.mem_write {m : Memory} {a : Nat} {b : Byte} {c : Host.Cell} (h : c ∈ Memory.write m a b) :
    c = (a, b) ∨ c ∈ m := by
  induction m with
  | nil => simpa [Memory.write] using h
  | cons cell rest ih =>
    simp only [Memory.write] at h
    split_ifs at h with h1 h2
    · simpa using h
    · rcases List.mem_cons.1 h with rfl | h
      · exact .inl rfl
      · exact .inr (List.mem_cons_of_mem _ h)
    · rcases List.mem_cons.1 h with rfl | h
      · exact .inr (List.mem_cons_self ..)
      · exact (ih h).imp_right (List.mem_cons_of_mem _)

/-- A write keeps the canonical form. -/
theorem Memory.write_wf {m : Memory} (a : Nat) (b : Byte) (h : Memory.wf m) : Memory.wf (Memory.write m a b) := by
  induction m with
  | nil => simp [Memory.wf, Memory.write]
  | cons cell rest ih =>
    obtain ⟨hc, hr⟩ := List.pairwise_cons.1 h
    simp only [Memory.write]
    split_ifs with h1 h2
    · refine List.pairwise_cons.2 ⟨fun x hx => ?_, h⟩
      rcases List.mem_cons.1 hx with rfl | hx
      · exact h1
      · exact h1.trans (hc x hx)
    · exact List.pairwise_cons.2 ⟨fun x hx => h2 ▸ hc x hx, hr⟩
    · refine List.pairwise_cons.2 ⟨fun x hx => ?_, ih hr⟩
      rcases Memory.mem_write hx with rfl | hx
      · show cell.1 < a
        omega
      · exact hc x hx

/-- The packet buffer after RESET is in canonical form: nothing is listed. -/
theorem Memory.wf_nil : Memory.wf ([] : Memory) := List.Pairwise.nil

/-- An index at or above every listed one reads as unwritten. -/
theorem Memory.read_eq_none_of_lt {m : Memory} {a : Nat} (h : ∀ c ∈ m, c.1 < a) : Memory.read m a = none := by
  induction m with
  | nil => rfl
  | cons cell rest ih =>
    have := h cell (List.mem_cons_self ..)
    rw [Memory.read_cons, if_neg (by omega), ih fun c hc => h c (List.mem_cons_of_mem _ hc)]

end Sys2Proof.Machine
end

