-- ==== Sys2Proof/Laws/State.lean ====
section
/-!
SUPPORT. What each register write does to each field of the state, once, so that no proof unfolds a record update.
-/
namespace Sys2Proof.Machine

section
variable (s : State) (v : Nat)
@[simp] theorem State.setPhase_cfg : (s.setPhase v).cfg = s.cfg := rfl
@[simp] theorem State.setPhase_phase : (s.setPhase v).phase = trunc s.cfg.w v := rfl
@[simp] theorem State.setPhase_tone : (s.setPhase v).tone = s.tone := rfl
@[simp] theorem State.setPhase_cur : (s.setPhase v).cur = s.cur := rfl
@[simp] theorem State.setPhase_sib : (s.setPhase v).sib = s.sib := rfl
@[simp] theorem State.setPhase_bitpos : (s.setPhase v).bitpos = s.bitpos := rfl
@[simp] theorem State.setPhase_length : (s.setPhase v).length = s.length := rfl
@[simp] theorem State.setPhase_cf : (s.setPhase v).cf = s.cf := rfl
@[simp] theorem State.setPhase_ten : (s.setPhase v).ten = s.ten := rfl
@[simp] theorem State.setPhase_out : (s.setPhase v).out = s.out := rfl
@[simp] theorem State.setPhase_pkt : (s.setPhase v).pkt = s.pkt := rfl
@[simp] theorem State.setPhase_resp : (s.setPhase v).resp = s.resp := rfl
@[simp] theorem State.setPhase_trace : (s.setPhase v).trace = s.trace := rfl
@[simp] theorem State.setPhase_resets : (s.setPhase v).resets = s.resets := rfl
end

section
variable (s : State) (v : Bit)
@[simp] theorem State.setTone_cfg : (s.setTone v).cfg = s.cfg := rfl
@[simp] theorem State.setTone_phase : (s.setTone v).phase = s.phase := rfl
@[simp] theorem State.setTone_tone : (s.setTone v).tone = v := rfl
@[simp] theorem State.setTone_cur : (s.setTone v).cur = s.cur := rfl
@[simp] theorem State.setTone_sib : (s.setTone v).sib = s.sib := rfl
@[simp] theorem State.setTone_bitpos : (s.setTone v).bitpos = s.bitpos := rfl
@[simp] theorem State.setTone_length : (s.setTone v).length = s.length := rfl
@[simp] theorem State.setTone_cf : (s.setTone v).cf = s.cf := rfl
@[simp] theorem State.setTone_ten : (s.setTone v).ten = s.ten := rfl
@[simp] theorem State.setTone_out : (s.setTone v).out = s.out := rfl
@[simp] theorem State.setTone_pkt : (s.setTone v).pkt = s.pkt := rfl
@[simp] theorem State.setTone_resp : (s.setTone v).resp = s.resp := rfl
@[simp] theorem State.setTone_trace : (s.setTone v).trace = s.trace := rfl
@[simp] theorem State.setTone_resets : (s.setTone v).resets = s.resets := rfl
end

section
variable (s : State) (v : Byte)
@[simp] theorem State.setCur_cfg : (s.setCur v).cfg = s.cfg := rfl
@[simp] theorem State.setCur_phase : (s.setCur v).phase = s.phase := rfl
@[simp] theorem State.setCur_tone : (s.setCur v).tone = s.tone := rfl
@[simp] theorem State.setCur_cur : (s.setCur v).cur = v := rfl
@[simp] theorem State.setCur_sib : (s.setCur v).sib = s.sib := rfl
@[simp] theorem State.setCur_bitpos : (s.setCur v).bitpos = s.bitpos := rfl
@[simp] theorem State.setCur_length : (s.setCur v).length = s.length := rfl
@[simp] theorem State.setCur_cf : (s.setCur v).cf = s.cf := rfl
@[simp] theorem State.setCur_ten : (s.setCur v).ten = s.ten := rfl
@[simp] theorem State.setCur_out : (s.setCur v).out = s.out := rfl
@[simp] theorem State.setCur_pkt : (s.setCur v).pkt = s.pkt := rfl
@[simp] theorem State.setCur_resp : (s.setCur v).resp = s.resp := rfl
@[simp] theorem State.setCur_trace : (s.setCur v).trace = s.trace := rfl
@[simp] theorem State.setCur_resets : (s.setCur v).resets = s.resets := rfl
end

section
variable (s : State) (v : Nat)
@[simp] theorem State.setSib_cfg : (s.setSib v).cfg = s.cfg := rfl
@[simp] theorem State.setSib_phase : (s.setSib v).phase = s.phase := rfl
@[simp] theorem State.setSib_tone : (s.setSib v).tone = s.tone := rfl
@[simp] theorem State.setSib_cur : (s.setSib v).cur = s.cur := rfl
@[simp] theorem State.setSib_sib : (s.setSib v).sib = trunc s.cfg.sw v := rfl
@[simp] theorem State.setSib_bitpos : (s.setSib v).bitpos = s.bitpos := rfl
@[simp] theorem State.setSib_length : (s.setSib v).length = s.length := rfl
@[simp] theorem State.setSib_cf : (s.setSib v).cf = s.cf := rfl
@[simp] theorem State.setSib_ten : (s.setSib v).ten = s.ten := rfl
@[simp] theorem State.setSib_out : (s.setSib v).out = s.out := rfl
@[simp] theorem State.setSib_pkt : (s.setSib v).pkt = s.pkt := rfl
@[simp] theorem State.setSib_resp : (s.setSib v).resp = s.resp := rfl
@[simp] theorem State.setSib_trace : (s.setSib v).trace = s.trace := rfl
@[simp] theorem State.setSib_resets : (s.setSib v).resets = s.resets := rfl
end

section
variable (s : State) (v : Nat)
@[simp] theorem State.setBitpos_cfg : (s.setBitpos v).cfg = s.cfg := rfl
@[simp] theorem State.setBitpos_phase : (s.setBitpos v).phase = s.phase := rfl
@[simp] theorem State.setBitpos_tone : (s.setBitpos v).tone = s.tone := rfl
@[simp] theorem State.setBitpos_cur : (s.setBitpos v).cur = s.cur := rfl
@[simp] theorem State.setBitpos_sib : (s.setBitpos v).sib = s.sib := rfl
@[simp] theorem State.setBitpos_bitpos : (s.setBitpos v).bitpos = trunc s.cfg.bw v := rfl
@[simp] theorem State.setBitpos_length : (s.setBitpos v).length = s.length := rfl
@[simp] theorem State.setBitpos_cf : (s.setBitpos v).cf = s.cf := rfl
@[simp] theorem State.setBitpos_ten : (s.setBitpos v).ten = s.ten := rfl
@[simp] theorem State.setBitpos_out : (s.setBitpos v).out = s.out := rfl
@[simp] theorem State.setBitpos_pkt : (s.setBitpos v).pkt = s.pkt := rfl
@[simp] theorem State.setBitpos_resp : (s.setBitpos v).resp = s.resp := rfl
@[simp] theorem State.setBitpos_trace : (s.setBitpos v).trace = s.trace := rfl
@[simp] theorem State.setBitpos_resets : (s.setBitpos v).resets = s.resets := rfl
end

section
variable (s : State) (v : Nat)
@[simp] theorem State.setLength_cfg : (s.setLength v).cfg = s.cfg := rfl
@[simp] theorem State.setLength_phase : (s.setLength v).phase = s.phase := rfl
@[simp] theorem State.setLength_tone : (s.setLength v).tone = s.tone := rfl
@[simp] theorem State.setLength_cur : (s.setLength v).cur = s.cur := rfl
@[simp] theorem State.setLength_sib : (s.setLength v).sib = s.sib := rfl
@[simp] theorem State.setLength_bitpos : (s.setLength v).bitpos = s.bitpos := rfl
@[simp] theorem State.setLength_length : (s.setLength v).length = trunc s.cfg.lw v := rfl
@[simp] theorem State.setLength_cf : (s.setLength v).cf = s.cf := rfl
@[simp] theorem State.setLength_ten : (s.setLength v).ten = s.ten := rfl
@[simp] theorem State.setLength_out : (s.setLength v).out = s.out := rfl
@[simp] theorem State.setLength_pkt : (s.setLength v).pkt = s.pkt := rfl
@[simp] theorem State.setLength_resp : (s.setLength v).resp = s.resp := rfl
@[simp] theorem State.setLength_trace : (s.setLength v).trace = s.trace := rfl
@[simp] theorem State.setLength_resets : (s.setLength v).resets = s.resets := rfl
end

section
variable (s : State) (v : Bit)
@[simp] theorem State.setCf_cfg : (s.setCf v).cfg = s.cfg := rfl
@[simp] theorem State.setCf_phase : (s.setCf v).phase = s.phase := rfl
@[simp] theorem State.setCf_tone : (s.setCf v).tone = s.tone := rfl
@[simp] theorem State.setCf_cur : (s.setCf v).cur = s.cur := rfl
@[simp] theorem State.setCf_sib : (s.setCf v).sib = s.sib := rfl
@[simp] theorem State.setCf_bitpos : (s.setCf v).bitpos = s.bitpos := rfl
@[simp] theorem State.setCf_length : (s.setCf v).length = s.length := rfl
@[simp] theorem State.setCf_cf : (s.setCf v).cf = v := rfl
@[simp] theorem State.setCf_ten : (s.setCf v).ten = s.ten := rfl
@[simp] theorem State.setCf_out : (s.setCf v).out = s.out := rfl
@[simp] theorem State.setCf_pkt : (s.setCf v).pkt = s.pkt := rfl
@[simp] theorem State.setCf_resp : (s.setCf v).resp = s.resp := rfl
@[simp] theorem State.setCf_trace : (s.setCf v).trace = s.trace := rfl
@[simp] theorem State.setCf_resets : (s.setCf v).resets = s.resets := rfl
end

section
variable (s : State) (v : Bit)
@[simp] theorem State.setTen_cfg : (s.setTen v).cfg = s.cfg := rfl
@[simp] theorem State.setTen_phase : (s.setTen v).phase = s.phase := rfl
@[simp] theorem State.setTen_tone : (s.setTen v).tone = s.tone := rfl
@[simp] theorem State.setTen_cur : (s.setTen v).cur = s.cur := rfl
@[simp] theorem State.setTen_sib : (s.setTen v).sib = s.sib := rfl
@[simp] theorem State.setTen_bitpos : (s.setTen v).bitpos = s.bitpos := rfl
@[simp] theorem State.setTen_length : (s.setTen v).length = s.length := rfl
@[simp] theorem State.setTen_cf : (s.setTen v).cf = s.cf := rfl
@[simp] theorem State.setTen_ten : (s.setTen v).ten = v := rfl
@[simp] theorem State.setTen_out : (s.setTen v).out = s.out := rfl
@[simp] theorem State.setTen_pkt : (s.setTen v).pkt = s.pkt := rfl
@[simp] theorem State.setTen_resp : (s.setTen v).resp = s.resp := rfl
@[simp] theorem State.setTen_trace : (s.setTen v).trace = s.trace := rfl
@[simp] theorem State.setTen_resets : (s.setTen v).resets = s.resets := rfl
end

section
variable (s : State) (v : Bit)
@[simp] theorem State.setOut_cfg : (s.setOut v).cfg = s.cfg := rfl
@[simp] theorem State.setOut_phase : (s.setOut v).phase = s.phase := rfl
@[simp] theorem State.setOut_tone : (s.setOut v).tone = s.tone := rfl
@[simp] theorem State.setOut_cur : (s.setOut v).cur = s.cur := rfl
@[simp] theorem State.setOut_sib : (s.setOut v).sib = s.sib := rfl
@[simp] theorem State.setOut_bitpos : (s.setOut v).bitpos = s.bitpos := rfl
@[simp] theorem State.setOut_length : (s.setOut v).length = s.length := rfl
@[simp] theorem State.setOut_cf : (s.setOut v).cf = s.cf := rfl
@[simp] theorem State.setOut_ten : (s.setOut v).ten = s.ten := rfl
@[simp] theorem State.setOut_out : (s.setOut v).out = v := rfl
@[simp] theorem State.setOut_pkt : (s.setOut v).pkt = s.pkt := rfl
@[simp] theorem State.setOut_resp : (s.setOut v).resp = s.resp := rfl
@[simp] theorem State.setOut_trace : (s.setOut v).trace = s.trace := rfl
@[simp] theorem State.setOut_resets : (s.setOut v).resets = s.resets := rfl
end

section
variable (s : State) (v : Memory)
@[simp] theorem State.setPkt_cfg : (s.setPkt v).cfg = s.cfg := rfl
@[simp] theorem State.setPkt_phase : (s.setPkt v).phase = s.phase := rfl
@[simp] theorem State.setPkt_tone : (s.setPkt v).tone = s.tone := rfl
@[simp] theorem State.setPkt_cur : (s.setPkt v).cur = s.cur := rfl
@[simp] theorem State.setPkt_sib : (s.setPkt v).sib = s.sib := rfl
@[simp] theorem State.setPkt_bitpos : (s.setPkt v).bitpos = s.bitpos := rfl
@[simp] theorem State.setPkt_length : (s.setPkt v).length = s.length := rfl
@[simp] theorem State.setPkt_cf : (s.setPkt v).cf = s.cf := rfl
@[simp] theorem State.setPkt_ten : (s.setPkt v).ten = s.ten := rfl
@[simp] theorem State.setPkt_out : (s.setPkt v).out = s.out := rfl
@[simp] theorem State.setPkt_pkt : (s.setPkt v).pkt = v := rfl
@[simp] theorem State.setPkt_resp : (s.setPkt v).resp = s.resp := rfl
@[simp] theorem State.setPkt_trace : (s.setPkt v).trace = s.trace := rfl
@[simp] theorem State.setPkt_resets : (s.setPkt v).resets = s.resets := rfl
end

section
variable (s : State) (v : Option Bit)
@[simp] theorem State.setResp_cfg : (s.setResp v).cfg = s.cfg := rfl
@[simp] theorem State.setResp_phase : (s.setResp v).phase = s.phase := rfl
@[simp] theorem State.setResp_tone : (s.setResp v).tone = s.tone := rfl
@[simp] theorem State.setResp_cur : (s.setResp v).cur = s.cur := rfl
@[simp] theorem State.setResp_sib : (s.setResp v).sib = s.sib := rfl
@[simp] theorem State.setResp_bitpos : (s.setResp v).bitpos = s.bitpos := rfl
@[simp] theorem State.setResp_length : (s.setResp v).length = s.length := rfl
@[simp] theorem State.setResp_cf : (s.setResp v).cf = s.cf := rfl
@[simp] theorem State.setResp_ten : (s.setResp v).ten = s.ten := rfl
@[simp] theorem State.setResp_out : (s.setResp v).out = s.out := rfl
@[simp] theorem State.setResp_pkt : (s.setResp v).pkt = s.pkt := rfl
@[simp] theorem State.setResp_resp : (s.setResp v).resp = v := rfl
@[simp] theorem State.setResp_trace : (s.setResp v).trace = s.trace := rfl
@[simp] theorem State.setResp_resets : (s.setResp v).resets = s.resets := rfl
end

section
variable (s : State) (v : List Word)
@[simp] theorem State.setTrace_cfg : (s.setTrace v).cfg = s.cfg := rfl
@[simp] theorem State.setTrace_phase : (s.setTrace v).phase = s.phase := rfl
@[simp] theorem State.setTrace_tone : (s.setTrace v).tone = s.tone := rfl
@[simp] theorem State.setTrace_cur : (s.setTrace v).cur = s.cur := rfl
@[simp] theorem State.setTrace_sib : (s.setTrace v).sib = s.sib := rfl
@[simp] theorem State.setTrace_bitpos : (s.setTrace v).bitpos = s.bitpos := rfl
@[simp] theorem State.setTrace_length : (s.setTrace v).length = s.length := rfl
@[simp] theorem State.setTrace_cf : (s.setTrace v).cf = s.cf := rfl
@[simp] theorem State.setTrace_ten : (s.setTrace v).ten = s.ten := rfl
@[simp] theorem State.setTrace_out : (s.setTrace v).out = s.out := rfl
@[simp] theorem State.setTrace_pkt : (s.setTrace v).pkt = s.pkt := rfl
@[simp] theorem State.setTrace_resp : (s.setTrace v).resp = s.resp := rfl
@[simp] theorem State.setTrace_trace : (s.setTrace v).trace = v := rfl
@[simp] theorem State.setTrace_resets : (s.setTrace v).resets = s.resets := rfl
end

section
variable (s : State) (v : Nat)
@[simp] theorem State.setResets_cfg : (s.setResets v).cfg = s.cfg := rfl
@[simp] theorem State.setResets_phase : (s.setResets v).phase = s.phase := rfl
@[simp] theorem State.setResets_tone : (s.setResets v).tone = s.tone := rfl
@[simp] theorem State.setResets_cur : (s.setResets v).cur = s.cur := rfl
@[simp] theorem State.setResets_sib : (s.setResets v).sib = s.sib := rfl
@[simp] theorem State.setResets_bitpos : (s.setResets v).bitpos = s.bitpos := rfl
@[simp] theorem State.setResets_length : (s.setResets v).length = s.length := rfl
@[simp] theorem State.setResets_cf : (s.setResets v).cf = s.cf := rfl
@[simp] theorem State.setResets_ten : (s.setResets v).ten = s.ten := rfl
@[simp] theorem State.setResets_out : (s.setResets v).out = s.out := rfl
@[simp] theorem State.setResets_pkt : (s.setResets v).pkt = s.pkt := rfl
@[simp] theorem State.setResets_resp : (s.setResets v).resp = s.resp := rfl
@[simp] theorem State.setResets_trace : (s.setResets v).trace = s.trace := rfl
@[simp] theorem State.setResets_resets : (s.setResets v).resets = v := rfl
end

/-- Setting a register to what it holds changes nothing: the frame of an operation that only writes a register back. -/
theorem State.setResp_self (s : State) : s.setResp s.resp = s := rfl

end Sys2Proof.Machine
end

