-- ==== Sys2Proof/Laws/Ops.lean ====
section
/-!
SUPPORT. One lemma per shared operation, saying once everything it can do: the sequencing of micro-operations, the
operand forms, the flag computations, and the micro-operations of TICK.
-/
namespace Sys2Proof.Machine

/-! ## One-bit registers and the mode -/

/-- A one-bit register holds 0 or 1. -/
theorem bit_eq_zero_or_one (b : Bit) : b = 0 ∨ b = 1 := by
  revert b
  decide

theorem bit_ne_one {b : Bit} : b ≠ 1 ↔ b = 0 := by
  revert b
  decide

theorem bit_ne_zero {b : Bit} : b ≠ 0 ↔ b = 1 := by
  revert b
  decide

@[simp] theorem State.mode_eq_running (s : State) : s.mode = .running ↔ s.cf = 1 := by
  unfold State.mode
  split <;> simp_all

@[simp] theorem State.mode_eq_idle (s : State) : s.mode = .idle ↔ s.cf = 0 := by
  unfold State.mode
  split
  · simp_all
  · simp [bit_ne_one.1 ‹_›]

/-! ## Sequencing -/

@[simp] theorem andThen_next (s : State) (g : State → Host.Outcome State Fault Refusal) : andThen (.next s) g = g s :=
  rfl

@[simp] theorem andThen_fault (f : Fault) (g : State → Host.Outcome State Fault Refusal) :
    andThen (.fault f) g = .fault f := rfl

@[simp] theorem andThen_refused (r : Refusal) (g : State → Host.Outcome State Fault Refusal) :
    andThen (.refused r) g = .refused r := rfl

/-- A sequence answers a next state exactly where both of its parts do. -/
theorem andThen_eq_next {x : Host.Outcome State Fault Refusal} {g : State → Host.Outcome State Fault Refusal}
    {t : State} : andThen x g = .next t ↔ ∃ s, x = .next s ∧ g s = .next t := by
  cases x <;> simp

/-- A sequence is refused where its first part is, or its second after it. -/
theorem andThen_eq_refused {x : Host.Outcome State Fault Refusal} {g : State → Host.Outcome State Fault Refusal}
    {r : Refusal} : andThen x g = .refused r ↔ x = .refused r ∨ ∃ s, x = .next s ∧ g s = .refused r := by
  cases x <;> simp

/-- A sequence faults where its first part does, or its second after it. -/
theorem andThen_eq_fault {x : Host.Outcome State Fault Refusal} {g : State → Host.Outcome State Fault Refusal}
    {f : Fault} : andThen x g = .fault f ↔ x = .fault f ∨ ∃ s, x = .next s ∧ g s = .fault f := by
  cases x <;> simp

/-! ## Operand forms -/

/-- BYTEIDX is BITPOS / 8 where BITPOS fits its width. -/
theorem State.byteIndex_eq {s : State} (h : s.bitpos < 2 ^ s.cfg.bw) : s.byteIndex = s.bitpos / 8 := by
  have hw : 4 ≤ s.cfg.bw := by
    have := s.cfg.ok.2.2.2.2.1
    unfold Config.bw
    omega
  exact slice_top (by omega) (by rwa [Nat.sub_add_cancel (by omega)])

@[simp] theorem State.bitNumber_eq (s : State) : s.bitNumber = s.bitpos % 8 := slice_low_three _

@[simp] theorem State.lengthBits_eq (s : State) : s.lengthBits = s.length * 8 := rfl

/-- What a read of the packet buffer can do. -/
theorem State.readPacket_eq (s : State) (a : Nat) (use : Byte → State) :
    s.readPacket a use = if s.cfg.cap ≤ a then .fault (.packetIndexAbsent a) else
      (Memory.read s.pkt a).elim (.refused .packetByteUnwritten) fun b => .next (use b) := by
  unfold State.readPacket
  split
  · rfl
  · cases Memory.read s.pkt a <;> rfl

/-! ## The tone generator -/

/-- ADVANCE writes PHASE alone, with the sum modulo PERIOD (40_tone_generator.md R72). -/
theorem advance_eq (s : State) :
    advance s = { s with phase := (s.phase + s.cfg.delta s.tone) % s.cfg.period } := rfl

/-- DRIVE writes OUT alone (R73). -/
theorem drive_eq (s : State) : drive s = { s with out := bitAt (s.cfg.w - 1) s.phase } := rfl

/-! ## The bit framer -/

/-- DECIDE writes TONE alone (41_bit_framer.md R84). -/
theorem decideTone_eq (s : State) :
    decideTone s = { s with tone := if s.cur.toNat % 2 = 0 then s.tone ^^^ 1 else s.tone } := by
  unfold decideTone State.setTone
  simp only [bitAt_zero_eq_zero_iff]
  split <;> rfl

/-- What FRAME does at a position inside the buffer, case by case (R81 to R84). -/
theorem frame_eq {s : State} (h : s.bitpos < s.cfg.cap * 8) :
    frame s = if s.bitpos % 8 = 0 then
        (Memory.read s.pkt (s.bitpos / 8)).elim (.refused .packetByteUnwritten) fun b =>
          .next { s with cur := b, tone := if b.toNat % 2 = 0 then s.tone ^^^ 1 else s.tone }
      else
        .next { s with cur := s.cur >>> 1, tone := if (s.cur >>> 1).toNat % 2 = 0 then s.tone ^^^ 1 else s.tone } := by
  have hi := s.byteIndex_eq (s.cfg.bits_lt_two_pow_bw h.le)
  unfold frame
  rw [s.bitNumber_eq]
  split
  · rw [loadByte, hi, State.readPacket_eq, if_neg (by omega)]
    cases Memory.read s.pkt (s.bitpos / 8) with
    | none => rfl
    | some b => exact congrArg _ (decideTone_eq _)
  · exact congrArg _ (decideTone_eq _)

/-- What FRAME can answer as a next state, from any state: it writes CUR and TONE alone. -/
theorem frame_next {s t : State} (h : frame s = .next t) :
    t = { s with cur := t.cur, tone := if t.cur.toNat % 2 = 0 then s.tone ^^^ 1 else s.tone } ∧
      (s.bitpos % 8 = 0 → Memory.read s.pkt s.byteIndex = some t.cur) ∧ (s.bitpos % 8 ≠ 0 → t.cur = s.cur >>> 1) := by
  obtain ⟨u, hu, ht⟩ := andThen_eq_next.1 h
  simp only [Host.Outcome.next.injEq] at ht
  rw [decideTone_eq] at ht
  rw [s.bitNumber_eq] at hu
  split at hu
  next h0 =>
    rw [loadByte, State.readPacket_eq] at hu
    split at hu
    · cases hu
    · cases hr : Memory.read s.pkt s.byteIndex with
      | none => simp [hr] at hu
      | some b =>
        simp only [hr, Option.elim_some, Host.Outcome.next.injEq] at hu
        subst hu ht
        exact ⟨rfl, fun _ => rfl, fun h => absurd h0 h⟩
  next h0 =>
    simp only [Host.Outcome.next.injEq] at hu
    subst hu ht
    exact ⟨rfl, fun h => absurd h h0, fun _ => rfl⟩

/-! ## The scheduler -/

/-- STOP writes TEN and CF alone (42_scheduler.md R93). -/
theorem stopRun_eq (s : State) : stopRun s = { s with ten := 0, cf := 0 } := rfl

/-- COUNT writes SIB and BITPOS alone (R96). -/
theorem count_frame (s : State) : count s = { s with sib := (count s).sib, bitpos := (count s).bitpos } := by
  unfold count
  split <;> rfl

/-- COUNT in a run: neither counter wraps (R96). -/
theorem count_eq {s : State} (hs : s.sib < s.cfg.spb) (hb : s.bitpos < s.length * 8) (hl : s.length ≤ s.cfg.cap) :
    count s = if s.sib + 1 = s.cfg.spb then { s with sib := 0, bitpos := s.bitpos + 1 }
      else { s with sib := s.sib + 1 } := by
  have := s.cfg.spb_le_two_pow_sw
  unfold count
  split
  · simp only [State.setSib, State.setBitpos, trunc_zero]
    rw [trunc_of_lt (s.cfg.bits_lt_two_pow_bw (by omega))]
  · simp only [State.setSib]
    rw [trunc_of_lt (by omega)]

/-- Steps 3 and 4 write PHASE, OUT, SIB and BITPOS alone (R95, R96). -/
theorem produceSample_frame (s : State) :
    produceSample s = { s with phase := (s.phase + s.cfg.delta s.tone) % s.cfg.period,
                               out := bitAt (s.cfg.w - 1) ((s.phase + s.cfg.delta s.tone) % s.cfg.period),
                               sib := (count s).sib, bitpos := (count s).bitpos } := by
  unfold produceSample
  rw [count_frame]
  unfold count
  split_ifs <;> first | rfl | contradiction

/-- What TICK can answer as a next state: the three paths of R91. -/
theorem execTick_next {s t : State} (h : execTick s = .next t) :
    (s.ten = 0 ∧ t = s) ∨ (s.ten = 1 ∧ s.bitpos = s.length * 8 ∧ t = { s with ten := 0, cf := 0 }) ∨
      (s.ten = 1 ∧ s.bitpos ≠ s.length * 8 ∧ ∃ f, frameStep s = .next f ∧ t = produceSample f) := by
  unfold execTick at h
  rw [s.lengthBits_eq] at h
  split_ifs at h with h1 h2
  · exact .inl ⟨h1, (Host.Outcome.next.inj h).symm⟩
  · exact .inr (.inl ⟨bit_ne_zero.1 h1, h2, (Host.Outcome.next.inj h).symm⟩)
  · obtain ⟨f, hf, ht⟩ := andThen_eq_next.1 h
    exact .inr (.inr ⟨bit_ne_zero.1 h1, h2, f, hf, (Host.Outcome.next.inj ht).symm⟩)

/-- What step 2 can answer as a next state: it writes CUR and TONE alone, and only on the first tick of a baud interval
(R94). -/
theorem frameStep_next {s f : State} (h : frameStep s = .next f) :
    (s.sib ≠ 0 ∧ f = s) ∨
      (s.sib = 0 ∧ f = { s with cur := f.cur, tone := if f.cur.toNat % 2 = 0 then s.tone ^^^ 1 else s.tone } ∧
        (s.bitpos % 8 = 0 → Memory.read s.pkt s.byteIndex = some f.cur) ∧
        (s.bitpos % 8 ≠ 0 → f.cur = s.cur >>> 1)) := by
  unfold frameStep at h
  split at h
  · exact .inr ⟨‹_›, frame_next h⟩
  · exact .inl ⟨‹_›, (Host.Outcome.next.inj h).symm⟩

/-! ## The other operations -/

/-- What RESET answers (43_orchestrator_interface.md R108): every unspecified register at a free value of its width. -/
theorem execReset_eq (s : State) :
    execReset s = .next { s with
      ten := 0, cf := 0, phase := trunc s.cfg.w (Config.resetPhase s.resets), tone := Config.resetTone s.resets,
      cur := Config.resetCur s.resets, sib := trunc s.cfg.sw (Config.resetSib s.resets),
      bitpos := trunc s.cfg.bw (Config.resetBitpos s.resets), length := trunc s.cfg.lw (Config.resetLength s.resets),
      out := Config.resetOut s.resets, pkt := [], resets := s.resets + 1 } := rfl

/-- What PKTWR can answer as a next state (R109). -/
theorem execPktwr_next {s t : State} {index : Nat} {byte : Byte} (h : execPktwr index byte s = .next t) :
    s.cf = 0 ∧ index < s.cfg.cap ∧ t = { s with pkt := Memory.write s.pkt index byte } := by
  unfold execPktwr at h
  split_ifs at h with h1 h2
  exact ⟨bit_ne_one.1 h1, by omega, (Host.Outcome.next.inj h).symm⟩

/-- What START can answer as a next state (R110). -/
theorem execStart_next {s t : State} {a : Nat} (h : execStart a s = .next t) :
    s.cf = 0 ∧ a ≤ s.cfg.cap ∧
      t = { s with phase := 0, tone := 0, sib := 0, bitpos := 0, length := a, ten := 1, cf := 1 } := by
  unfold execStart at h
  split_ifs at h with h1 h2
  refine ⟨bit_ne_one.1 h1, by omega, (Host.Outcome.next.inj h).symm.trans ?_⟩
  have := s.cfg.cap_lt_two_pow_lw
  simp [State.raiseBusy, State.resetModulation, State.setPhase, State.setTone, State.setSib, State.setBitpos,
    State.setLength, State.setTen, State.setCf, trunc_of_lt (show a < 2 ^ s.cfg.lw by omega)]

end Sys2Proof.Machine
end

