-- ==== Sys2Proof/Laws/Exec.lean ====
section
/-!
SUPPORT. What TICK and a step can answer, said once over whole operations, and the laws of positions in a run, of the
closed form and of several operations in a row.
-/
namespace Sys2Proof.Machine

/-! ## TICK -/

/-- In mode RUNNING the invariant gives the timer enable and the ranges of R25. -/
theorem State.Inv.running {s : State} (h : s.Inv) (hc : s.cf = 1) :
    s.ten = 1 ∧ s.sib < s.cfg.spb ∧ s.bitpos ≤ s.length * 8 ∧ s.length ≤ s.cfg.cap :=
  ⟨h.2.1 ▸ hc, h.2.2 (by simpa using hc)⟩

/-- A tick that passes the gate and the end test is steps 2 to 4 (42_scheduler.md R91). -/
theorem execTick_sample {s : State} (h1 : s.ten = 1) (h2 : s.bitpos ≠ s.length * 8) :
    execTick s = andThen (frameStep s) fun f => .next (produceSample f) := by
  simp [execTick, h1, h2]

/-- Steps 3 and 4 in a run (R95, R96): every register they write, with no wrap of the counters. -/
theorem produceSample_eq {s : State} (hs : s.sib < s.cfg.spb) (hb : s.bitpos < s.length * 8)
    (hl : s.length ≤ s.cfg.cap) :
    produceSample s = { s with
      phase := (s.phase + s.cfg.delta s.tone) % s.cfg.period,
      out := bitAt (s.cfg.w - 1) ((s.phase + s.cfg.delta s.tone) % s.cfg.period),
      sib := if s.sib + 1 = s.cfg.spb then 0 else s.sib + 1,
      bitpos := if s.sib + 1 = s.cfg.spb then s.bitpos + 1 else s.bitpos } := by
  rw [produceSample_frame, count_eq hs hb hl]
  split <;> rfl

/-- The frame of TICK, from any state. -/
theorem execTick_frame {s t : State} (h : execTick s = .next t) :
    t = { s with phase := t.phase, tone := t.tone, cur := t.cur, sib := t.sib, bitpos := t.bitpos, out := t.out,
                 cf := t.cf, ten := t.ten } := by
  rcases execTick_next h with ⟨-, rfl⟩ | ⟨-, -, rfl⟩ | ⟨-, -, f, hf, rfl⟩
  · rfl
  · rfl
  · rw [produceSample_frame]
    rcases frameStep_next hf with ⟨-, rfl⟩ | ⟨-, hf, -⟩
    · rfl
    · rw [hf]

/-- What a sample tick of a run answers as a next state: the tone and the byte in flight that FRAME leaves, and every
other register as a function of them. -/
theorem execTick_next_sample {s t : State} (hr : s.ten = 1 ∧ s.RunRanges) (h2 : s.bitpos ≠ s.length * 8)
    (h : execTick s = .next t) :
    ∃ tone cur, t = { s with
        tone := tone, cur := cur, phase := (s.phase + s.cfg.delta tone) % s.cfg.period,
        out := bitAt (s.cfg.w - 1) ((s.phase + s.cfg.delta tone) % s.cfg.period),
        sib := if s.sib + 1 = s.cfg.spb then 0 else s.sib + 1,
        bitpos := if s.sib + 1 = s.cfg.spb then s.bitpos + 1 else s.bitpos } ∧
      (s.sib ≠ 0 → tone = s.tone ∧ cur = s.cur) ∧
      (s.sib = 0 → tone = (if cur.toNat % 2 = 0 then s.tone ^^^ 1 else s.tone) ∧
        (s.bitpos % 8 = 0 → Memory.read s.pkt (s.bitpos / 8) = some cur) ∧
        (s.bitpos % 8 ≠ 0 → cur = s.cur >>> 1)) := by
  obtain ⟨ht, hs, hb, hl⟩ := hr
  rw [execTick_sample ht h2] at h
  obtain ⟨f, hf, h⟩ := andThen_eq_next.1 h
  cases h
  have hx := s.byteIndex_eq (s.cfg.bits_lt_two_pow_bw (n := s.bitpos) (by omega))
  rcases frameStep_next hf with ⟨h0, rfl⟩ | ⟨h0, hf', h7, h8⟩
  · exact ⟨_, _, produceSample_eq hs (by omega) hl, fun _ => ⟨rfl, rfl⟩, fun h => absurd h h0⟩
  · refine ⟨if f.cur.toNat % 2 = 0 then s.tone ^^^ 1 else s.tone, f.cur, ?_, fun h => absurd h0 h,
      fun _ => ⟨rfl, fun h => hx ▸ h7 h, h8⟩⟩
    rw [hf']
    exact produceSample_eq hs (show s.bitpos < s.length * 8 by omega) hl

/-! ## The step -/

/-- A word that decodes performs its instruction. -/
theorem performWord_of_decode {w : Word} {i : Instr} (h : decode w = .ok i) (s : State) :
    performWord w s = exec i s := by
  simp [performWord, h]

/-- A reserved word is refused. -/
theorem performWord_of_reserved {w : Word} {why : Reserved} (h : decode w = .error why) (s : State) :
    performWord w s = .refused (.reservedCommand w why) := by
  simp [performWord, h]

/-- What a step can answer as a next state: nothing was presented, or the next word's operation was performed. -/
theorem step_next {s t : State} (h : step s = .next t) :
    (s.trace = [] ∧ t = s) ∨
      ∃ w rest i, s.trace = w :: rest ∧ decode w = .ok i ∧ exec i (s.setTrace rest) = .next t := by
  unfold step State.nextCommand at h
  cases htr : s.trace with
  | nil => exact .inl ⟨rfl, by simpa [htr] using h.symm⟩
  | cons w rest =>
    simp only [htr] at h
    cases hd : decode w with
    | error why => simp [performWord_of_reserved hd] at h
    | ok i => exact .inr ⟨w, rest, i, rfl, hd, by simpa [performWord_of_decode hd] using h⟩

/-- The step on a word that decodes. -/
theorem step_of_decode {s : State} {w : Word} {rest : List Word} {i : Instr} (h : s.trace = w :: rest)
    (hd : decode w = .ok i) : step s = exec i (s.setTrace rest) := by
  simp [step, State.nextCommand, h, performWord_of_decode hd]

/-- A word of a passive trace spells NOP, POLL or TICK. -/
theorem passiveWord_decode {w : Word} (h : passiveWord w = true) :
    decode w = .ok .nop ∨ decode w = .ok .poll ∨ decode w = .ok .tick := by
  unfold passiveWord at h
  cases hd : decode w with
  | error y => simp [hd] at h
  | ok i =>
    rw [hd] at h
    cases i <;> simp [passiveOp] at h <;> simp

/-! ## Positions in a run -/

/-- COUNT advances the number of samples by one (60_exceptions.md R137). -/
theorem samplesDone_count (s : State) :
    (if s.sib + 1 = s.cfg.spb then s.bitpos + 1 else s.bitpos) * s.cfg.spb +
      (if s.sib + 1 = s.cfg.spb then 0 else s.sib + 1) = s.samplesDone + 1 := by
  unfold State.samplesDone
  split
  next h => rw [add_mul]; omega
  next => omega

/-- SIB and BITPOS are the remainder and the quotient of the number of samples by SPB. -/
theorem position_of_samplesDone {s : State} (hs : s.sib < s.cfg.spb) :
    s.sib = s.samplesDone % s.cfg.spb ∧ s.bitpos = s.samplesDone / s.cfg.spb := by
  unfold State.samplesDone
  rw [Nat.mul_comm, Nat.mul_add_mod, Nat.mod_eq_of_lt hs, Nat.mul_add_div (by omega), Nat.div_eq_of_lt hs]
  simp

/-- The end test fails exactly while samples are left. -/
theorem samplesDone_lt_iff {s : State} (hr : s.RunRanges) :
    s.samplesDone < s.length * 8 * s.cfg.spb ↔ s.bitpos ≠ s.length * 8 := by
  obtain ⟨hs, hb, -⟩ := hr
  unfold State.samplesDone
  constructor
  · rintro h h2
    rw [h2] at h
    omega
  · intro h
    have : (s.bitpos + 1) * s.cfg.spb ≤ s.length * 8 * s.cfg.spb := Nat.mul_le_mul_right _ (by omega)
    rw [add_mul] at this
    omega

/-! ## The closed form -/

/-- A 0 bit toggles the tone, any other leaves it (30_encoding.md R57). -/
theorem toneAfter_succ (m : Memory) (n : Nat) :
    toneAfter m (n + 1) = if streamBit m n = some 0 then toneAfter m n ^^^ 1 else toneAfter m n := by
  unfold toneAfter
  simp only [zeroBits]
  split
  · apply BitVec.eq_of_toNat_eq
    rcases Nat.mod_two_eq_zero_or_one (zeroBits m n) with h | h <;> simp [BitVec.toNat_ofNat, Nat.add_mod, h]
  · rfl

/-- The tone is space exactly where the number of 0 bits is odd. -/
theorem toneAfter_eq (m : Memory) (n : Nat) : toneAfter m n = if zeroBits m n % 2 = 0 then 0 else 1 := by
  unfold toneAfter
  apply BitVec.eq_of_toNat_eq
  rcases Nat.mod_two_eq_zero_or_one (zeroBits m n) with h | h <;> simp [BitVec.toNat_ofNat, h]

/-- A bit of a written byte is 0 exactly where the byte, shifted down to it, is even. -/
theorem streamBit_eq_zero_iff {m : Memory} {i : Nat} {b : Byte} (h : Memory.read m (i / 8) = some b) :
    streamBit m i = some 0 ↔ b.toNat / 2 ^ (i % 8) % 2 = 0 := by
  simp only [streamBit, h, Option.map_some, Option.some.injEq, bitAt_eq]
  split <;> simp_all

/-! ## Several operations in a row -/

@[simp] theorem ticks_zero (s : State) : ticks 0 s = .next s := rfl

theorem ticks_succ (k : Nat) (s : State) : ticks (k + 1) s = andThen (execTick s) (ticks k) := rfl

/-- k ticks after j ticks. -/
theorem ticks_add (j k : Nat) (s : State) : ticks (j + k) s = andThen (ticks j s) (ticks k) := by
  induction j generalizing s with
  | zero => simp
  | succ j ih =>
    rw [Nat.succ_add, ticks_succ, ticks_succ]
    cases execTick s with
    | next t => exact ih t
    | fault f => rfl
    | refused r => rfl

/-- One tick more, at the end. -/
theorem ticks_succ_last (k : Nat) (s : State) : ticks (k + 1) s = andThen (ticks k s) execTick := by
  rw [ticks_add]
  congr 1
  funext t
  rw [ticks_succ]
  cases execTick t <;> rfl

/-- Operations in a row are the first ones, then the others. -/
theorem execAll_append (l l' : List Instr) (s : State) :
    execAll (l ++ l') s = andThen (execAll l s) (execAll l') := by
  induction l generalizing s with
  | nil => rfl
  | cons i l ih =>
    rw [List.cons_append, execAll, execAll]
    cases exec i s with
    | next t => exact ih t
    | fault f => rfl
    | refused r => rfl

/-! ## Repetition and expansion -/

/-- The state an operation leaves is the one it answers, or else the one it was performed in. -/
@[simp] theorem stateLeft_next (s t : State) : stateLeft s (.next t) = t := rfl

/-- A fault leaves the state as it was. -/
@[simp] theorem stateLeft_fault (s : State) (f : Fault) : stateLeft s (.fault f) = s := rfl

/-- A refusal leaves the state as it was. -/
@[simp] theorem stateLeft_refused (s : State) (r : Refusal) : stateLeft s (.refused r) = s := rfl

/-- The end of a sequence is performed in the state that its beginning leaves. -/
theorem leaveAll_append {α : Type} (perform : α → State → Host.Outcome State Fault Refusal) (l l' : List α) (s : State) :
    leaveAll perform (l ++ l') s = leaveAll perform l' (leaveAll perform l s) := by
  induction l generalizing s with
  | nil => rfl
  | cons a l ih => exact ih _

/-- Operations that all answer leave the state that the last one answers. -/
theorem leaveAll_of_execAll {l : List Instr} {s t : State} (h : execAll l s = .next t) : leaveAll exec l s = t := by
  induction l generalizing s with
  | nil => cases h; rfl
  | cons i l ih =>
    obtain ⟨u, hu, h⟩ := andThen_eq_next.1 h
    rw [leaveAll, hu]
    exact ih h

/-- The words of instructions leave what the instructions leave. -/
theorem leaveAll_map_encode {l : List Instr} (h : ∀ i ∈ l, decode (encode i) = .ok i) (s : State) :
    leaveAll performWord (l.map encode) s = leaveAll exec l s := by
  induction l generalizing s with
  | nil => rfl
  | cons i l ih =>
    rw [List.map_cons, leaveAll, performWord_of_decode (h i (by simp))]
    exact ih (fun j hj => h j (by simp [hj])) _

/-- A repetition of i holds nothing but i, at least once. -/
theorem repeatUntil_some {i : Instr} {stop : State → Bool} {fuel : Nat} {s : State} {ops : List Instr}
    (h : repeatUntil i stop fuel s = some ops) : ∃ k < fuel, ops = List.replicate (k + 1) i := by
  induction fuel generalizing s ops with
  | zero => simp [repeatUntil] at h
  | succ fuel ih =>
    unfold repeatUntil at h
    split at h
    · exact ⟨0, by omega, by simpa using h.symm⟩
    · obtain ⟨ops', h', rfl⟩ := Option.map_eq_some_iff.1 h
      obtain ⟨k, hk, rfl⟩ := ih h'
      exact ⟨k + 1, by omega, rfl⟩

/-- The repetition that ends with the first i to leave a state in which `stop` holds. -/
theorem repeatUntil_eq {i : Instr} {stop : State → Bool} {k fuel : Nat} {s : State}
    (before : ∀ j < k, stop (leaveAll exec (List.replicate (j + 1) i) s) = false)
    (last : stop (leaveAll exec (List.replicate (k + 1) i) s) = true) (hf : k < fuel) :
    repeatUntil i stop fuel s = some (List.replicate (k + 1) i) := by
  obtain ⟨fuel, rfl⟩ : ∃ n, fuel = n + 1 := ⟨fuel - 1, by omega⟩
  induction k generalizing s fuel with
  | zero =>
    have h : stop (stateLeft s (exec i s)) = true := last
    simp [repeatUntil, h]
  | succ k ih =>
    obtain ⟨fuel, rfl⟩ : ∃ n, fuel = n + 1 := ⟨fuel - 1, by omega⟩
    have h : stop (stateLeft s (exec i s)) = false := before 0 (by omega)
    rw [repeatUntil, if_neg (by simp [h]),
      ih (s := stateLeft s (exec i s)) (fun j hj => before (j + 1) (by omega)) last fuel (by omega)]
    rfl

/-- WAIT is one POLL where CF is 0, and nothing finite where it is 1. -/
theorem expandWait_eq (s : State) : expandWait s = if s.cf = 0 then some [.poll] else none := by
  simp [expandWait, repeatUntil, exec, execPoll, State.setResp]

/-- LOAD writes byte j at index j. -/
theorem loadFrom_getElem? (index : Nat) (bytes : List Byte) (j : Nat) :
    (loadFrom index bytes)[j]? = bytes[j]?.map fun b => .pktwr (index + j) b := by
  induction bytes generalizing index j with
  | nil => simp [loadFrom]
  | cons b rest ih =>
    cases j with
    | zero => simp [loadFrom]
    | succ j => simp [loadFrom, ih, Nat.add_assoc, Nat.add_comm 1 j]

/-! ## Pins -/

/-- What one instant of the signals does: RESET is performed last, and whatever the other operation was (60_exceptions.md
R131). -/
theorem execPins_eq (p : Pins) (s : State) :
    execPins p s =
      if p.rst then exec .reset (stateLeft s (execAll (pinsStrobes p) s)) else execAll (pinsStrobes p) s := rfl

end Sys2Proof.Machine
end

