-- ==== Sys2Proof/Laws/PerInstr.lean ====
section
/-!
SUPPORT. What holds of every instruction, one lemma per constructor: its command word matches the row of the opcode table
that bears its mnemonic (30_encoding.md R61).
-/
namespace Sys2Proof.Laws.EncodingMatchesRow

/-- The command word of a well-formed instruction matches the row of its mnemonic. -/
def Statement (i : Instr) : Prop :=
  i.wellFormed = true → ∃ row ∈ opcodeTable, row.mnemonic = i.mnemonic ∧ row.agent = i.agent ∧
    encode i &&& row.mask = row.pattern

theorem nop : Statement .nop := fun _ => by decide

theorem reset : Statement .reset := fun _ => by decide

theorem pktwr (index : Nat) (byte : Byte) : Statement (.pktwr index byte) := fun h => by
  obtain ⟨h1, h2, -, -⟩ :=
    packFields_fields (op := 2) (a := index) (b := byte) (by decide) (by simpa [Instr.wellFormed] using h)
  exact ⟨⟨"PKTWR", .fg, 0x20000000, 0xFF000000⟩, by decide, rfl, rfl, (row_matches _).2.2.1.2 ⟨h2, h1⟩⟩

theorem start (length : Nat) : Statement (.start length) := fun h => by
  obtain ⟨h1, h2, -, h4⟩ :=
    packFields_fields (op := 3) (a := length) (b := 0) (by decide) (by simpa [Instr.wellFormed] using h)
  exact ⟨⟨"START", .fg, 0x30000000, 0xFF0000FF⟩, by decide, rfl, rfl, (row_matches _).2.2.2.1.2 ⟨h2, h1, h4⟩⟩

theorem tick : Statement .tick := fun _ => by decide

theorem poll : Statement .poll := fun _ => by decide

end Sys2Proof.Laws.EncodingMatchesRow
end

