-- ==== Sys2Proof/Tests/Slice0.lean ====
section
/-!
SUPPORT. The model's own tests: the check of well-formedness, words written out bit by bit, vectors of
95_test_vectors.md (section or program named at each), and for every statement with hypotheses a state that meets them.
-/
namespace Sys2Proof.Tests
open Sys2Proof Sys2Proof.Machine

/-- A state of Config A (00_scope.md R8) with PKT = [0xA5, 0x3C], in the order of 95_test_vectors.md section 0. -/
def stA (phase : Nat) (tone : Bit) (cur : Byte) (sib bitpos length : Nat) (busy out : Bit) : State :=
  { State.resetOf Config.exampleA with
    phase := phase, tone := tone, cur := cur, sib := sib, bitpos := bitpos, length := length, cf := busy, ten := busy,
    out := out, pkt := [(0, 0xA5), (1, 0x3C)] }

/-- The registers that 95_test_vectors.md lists, in that order; CF and TEN are always equal there. -/
structure Regs where
  phase : Nat
  tone : Bit
  cur : Byte
  sib : Nat
  bitpos : Nat
  length : Nat
  cf : Bit
  ten : Bit
  out : Bit
  deriving DecidableEq, Repr

/-- The registers of a state. -/
def regs (s : State) : Regs := ⟨s.phase, s.tone, s.cur, s.sib, s.bitpos, s.length, s.cf, s.ten, s.out⟩

/-- A view of the next state an operation answers. -/
def view {α : Type} (x : Host.Outcome State Fault Refusal) (f : State → α) : Option α :=
  match x with
  | .next t => some (f t)
  | _ => none

/-- The reason an operation is refused. -/
def refusal (x : Host.Outcome State Fault Refusal) : Option Refusal :=
  match x with
  | .refused r => some r
  | _ => none

/-! ## Well-formedness and configurations -/

theorem test_wellFormed_index : Instr.wellFormed (.pktwr 65535 0) = true ∧ Instr.wellFormed (.pktwr 65536 0) = false := by
  decide

theorem test_wellFormed_length : Instr.wellFormed (.start 65535) = true ∧ Instr.wellFormed (.start 65536) = false := by
  decide

/-- R7 at its bounds: CAP = 2^LW - 1 is admitted, CAP = 2^LW is not; DELTA_MARK = 2^(K+7) is not. -/
theorem test_configuration_bounds :
    (Config.ofParameters 1 24 44 4 4 15).isSome = true ∧ Config.ofParameters 1 24 44 4 4 16 = none ∧
      Config.ofParameters 1 256 44 4 4 8 = none ∧ Config.ofParameters 0 24 44 4 4 8 = none := by decide

/-- R6: SW for SPB = 4, 11 and, in program P6, 1. -/
theorem test_width_of_sib :
    Config.exampleA.sw = 2 ∧ Config.exampleB.sw = 4 ∧ (Config.ofParameters 1 24 44 1 4 8).map Config.sw = some 1 := by
  decide

/-! ## Decoding (30_encoding.md R59, R61; 95_test_vectors.md 2.1) -/

theorem test_decode_nop : decode 0b00000000000000000000000000000000 = .ok .nop := by decide

theorem test_decode_reset : decode 0b00010000000000000000000000000000 = .ok .reset := by decide

theorem test_decode_pktwr : decode 0b00100000000000000000000100111100 = .ok (.pktwr 1 0x3C) := by decide

theorem test_decode_start : decode 0b00110000000000000000001000000000 = .ok (.start 2) := by decide

theorem test_decode_tick : decode 0b01000000000000000000000000000000 = .ok .tick := by decide

theorem test_decode_poll : decode 0b01010000000000000000000000000000 = .ok .poll := by decide

theorem test_decode_reserved :
    decode 0x60000000 = .error .opcode ∧ decode 0x01000000 = .error .zeroField ∧ decode 0x00000001 = .error .operandB ∧
      decode 0x10000100 = .error .operandA ∧ decode 0x30000101 = .error .operandB ∧
      decode 0x50000100 = .error .operandA := by decide

/-- R66: the words of the trace syntax's examples. -/
theorem test_encode : encode (.pktwr 0 0xA5) = 0x200000A5 ∧ encode (.start 2) = 0x30000200 := by decide

/-! ## The operations -/

/-- Whatever the configuration, the next word presented to the machine after reset is performed. -/
theorem test_fetch_after_reset :
    (view (step (State.reset.withFetchWord 32 0x20000000)) State.cf) = some 0 ∧
      (view (step (State.reset.withFetchWord 32 0x30000000)) State.cf) = some 1 ∧
      (view (step (State.reset.withFetchWord 32 0x50000000)) State.resp) = some (some 0) := by decide

theorem test_nop : view (exec .nop (stA 0xE4 1 0x52 3 1 2 1 1)) id = some (stA 0xE4 1 0x52 3 1 2 1 1) := by decide

/-- 2.10: RESET while RUNNING. -/
theorem test_reset_cuts_a_run :
    view (exec .reset (stA 0x58 1 0x00 2 0 1 1 0)) (fun t => (t.cf, t.ten, t.pkt, t.resets)) = some (0, 0, [], 1) := by
  decide

/-- 2.8: the last write to an index stays, and the last index of Config A is accepted. -/
theorem test_pktwr_overwrites :
    view (exec (.pktwr 0 0x22) (stA 0 0 0 0 0 0 0 0)) State.pkt = some [(0, 0x22), (1, 0x3C)] ∧
      view (exec (.pktwr 7 0xFF) (stA 0 0 0 0 0 0 0 0)) State.pkt = some [(0, 0xA5), (1, 0x3C), (7, 0xFF)] := by decide

/-- 2.8: the order in which PKTWR tests its preconditions. -/
theorem test_pktwr_refused :
    refusal (exec (.pktwr 8 1) (stA 0 0 0 0 0 0 0 0)) = some .pktIndexOutOfRange ∧
      refusal (exec (.pktwr 8 1) (stA 0 0 0 0 0 1 1 0)) = some .pktWriteWhileRunning := by decide

/-- 2.7: every field is overwritten, CUR and OUT are kept. -/
theorem test_start_keeps_cur_and_out :
    view (exec (.start 2) (stA 0x2C 1 0x3C 2 9 2 0 1)) regs = some ⟨0x00, 0, 0x3C, 0, 0, 2, 1, 1, 1⟩ := by decide

/-- 2.7: START 9 in IDLE and in RUNNING. -/
theorem test_start_refused :
    refusal (exec (.start 9) (stA 0 0 0 0 0 0 0 0)) = some .lengthExceedsCapacity ∧
      refusal (exec (.start 9) (stA 0x2C 1 0x00 1 0 1 1 0)) = some .startWhileRunning := by decide

/-- 2.6: the byte boundary, tick 33 of P2. -/
theorem test_tick_loads_next_byte :
    view (exec .tick (stA 0x40 0 0x01 0 8 2 1 0)) regs = some ⟨0x6C, 1, 0x3C, 1, 8, 2, 1, 1, 0⟩ := by decide

/-- 2.6: OUT falls on the wrap of the phase, with the roll-over of SIB. -/
theorem test_tick_wraps :
    view (exec .tick (stA 0xE4 1 0x52 3 1 2 1 1)) regs = some ⟨0x10, 1, 0x52, 0, 2, 2, 1, 1, 0⟩ := by decide

theorem test_poll : view (exec .poll (stA 0x40 0 0x01 0 8 1 1 0)) State.resp = some (some 1) := by decide

/-- R78: ADVANCE and DRIVE with the largest phase and the largest increment. -/
theorem test_advance_largest :
    (Config.ofParameters 1 0xFF 0x80 4 4 8).map (fun c =>
      let s := drive (advance { State.resetOf c with phase := 0xFF })
      (s.phase, s.out)) = some (0xFE, 1) := by decide

/-- P5, baud interval 0 of Config B: the top bit of a 16-bit phase, and the wrap. -/
theorem test_tick_config_b :
    view (exec .tick { State.resetOf Config.exampleB with
      phase := 0xFFFC, tone := 1, cur := 0x7E, sib := 6, length := 1, cf := 1, ten := 1, out := 1 }) regs =
      some ⟨0x2AA6, 1, 0x7E, 7, 0, 1, 1, 1, 0⟩ := by decide

/-- R66: the expansions. -/
theorem test_pseudo_expansions :
    expandPseudo (stA 0 0 0 0 0 0 0 0) (.load [0xA5, 0x3C]) = some [.pktwr 0 0xA5, .pktwr 1 0x3C] ∧
      expandPseudo (stA 0 0 0 0 0 0 0 0) .wait = some [.poll] ∧
      expandPseudo (stA 0 0 0 0 0 0 0 0) .baud = some [.tick, .tick, .tick, .tick] := by decide

/-- R66: RUN before the last sample tick of a run, and where the timer is stopped; WAIT has no end while CF is 1. -/
theorem test_pseudo_run :
    expandPseudo (stA 0x28 0 0x01 3 7 1 1 0) .run = some [.tick, .tick] ∧
      expandPseudo (stA 0 0 0 0 0 0 0 0) .run = some [.tick] ∧
      expandPseudo (stA 0x28 0 0x01 3 7 1 1 0) .wait = none := by decide

/-- P7: START 9 is refused and the trace goes on. -/
theorem test_trace_keeps_refused_line :
    expandTrace [.command (.start 9), .word 0x60000000, .command .poll] (stA 0 0 0 0 0 0 0 0) =
      some [0x30000900, 0x60000000, 0x50000000] ∧
    (outcomes [0x30000900, 0x60000000, 0x50000000] (stA 0 0 0 0 0 0 0 0)).map (fun x => (refusal x, view x State.resp)) =
      [(some .lengthExceedsCapacity, none), (some (.reservedCommand 0x60000000 .opcode), none),
        (none, some (some 0))] := by decide

/-- R66: TRANSMIT whose START is refused is START, RUN and WAIT all the same. -/
theorem test_transmit_refused :
    expandPseudo (stA 0 0 0 0 0 0 0 0) (.transmit 9) = some [.start 9, .tick, .poll] ∧
      expandPseudo (stA 0x28 0 0x01 3 7 1 1 0) (.transmit 1) = some [.start 1, .tick, .tick, .poll] := by decide

/-- R131: RESET with a START that is refused. -/
theorem test_reset_with_refused_start :
    (view (execPins ⟨true, false, 0, 0, true, 1, false⟩ (stA 0x28 0 0x01 3 7 1 1 0)) fun t => (t.cf, t.ten, t.pkt)) =
      some (0, 0, []) := by decide

/-! ## Witnesses: the hypotheses of every statement can be met -/

/-- A run of two bytes, in the middle of bit 1; what 2.6 gives for tick 5 of P2. -/
def mid : State := stA 0x8C 1 0x52 1 1 2 1 1

/-- An idle state with both bytes written. -/
def idle : State := stA 0xE0 0 0x00 0 16 2 0 1

/-- A run whose first byte was never written. -/
def unwritten : State := { stA 0 0 0 0 0 1 1 0 with pkt := [] }

/-- The last sample tick of a run of one byte is still to come. -/
def lastSample : State := stA 0x28 0 0x01 3 7 1 1 0

theorem test_witness_invariants_running : mid.RunInv ∧ mid.mode = .running := by decide

theorem test_witness_invariants_idle : idle.RunInv ∧ idle.mode = .idle := by decide

theorem test_witness_invariants_boundaries : unwritten.RunInv ∧ lastSample.RunInv := by decide

theorem test_witness_DecodeOfEncode : Instr.wellFormed (.pktwr 65535 0xFF) = true ∧ Instr.wellFormed .tick = true := by
  decide

theorem test_witness_EncodeOfDecode : decode 0x20FFFFFF = .ok (.pktwr 65535 0xFF) := by decide

theorem test_witness_OpcodeTableSelectsTheCommand :
    (0x20FFFFFF : Word) &&& (0xFF000000 : Word) = 0x20000000 ∧ (0x30FFFF00 : Word) &&& (0xFF0000FF : Word) = 0x30000000 := by
  decide

theorem test_witness_OperandsAreUsedAsTheyStand :
    decode 0x20FFFFFF = .ok (.pktwr 65535 0xFF) ∧ decode 0x30FFFF00 = .ok (.start 65535) := by decide

theorem test_witness_ReservedWordsAreRefused :
    refusal (step { idle with trace := [0x60000000, 0x40000000] }) = some (.reservedCommand 0x60000000 .opcode) ∧
      refusal (step { idle with trace := [0x30000101] }) = some (.reservedCommand 0x30000101 .operandB) := by decide

theorem test_witness_StepPerformsTheNextCommand :
    ({ idle with trace := [0x200001FF] } : State).trace = 0x200001FF :: [] ∧ decode 0x200001FF = .ok (.pktwr 1 0xFF) ∧
      Instr.wellFormed (.pktwr 1 0xFF) = true ∧ (0x200001FF : Word) = encode (.pktwr 1 0xFF) := by decide

theorem test_witness_NoEventChangesNothing : mid.trace = [] := by decide

theorem test_witness_PktwrStoresOneByte :
    mid.cf = 1 ∧ idle.cf = 0 ∧ idle.cfg.cap ≤ 8 ∧ 7 < idle.cfg.cap := by decide

theorem test_witness_StartBeginsATransmission :
    mid.cf = 1 ∧ idle.cf = 0 ∧ idle.cfg.cap < 9 ∧ 8 ≤ idle.cfg.cap ∧ unwritten.Inv ∧ unwritten.cf = 1 ∧
      unwritten.bitpos ≠ unwritten.length * 8 ∧ unwritten.sib = 0 ∧ unwritten.bitpos % 8 = 0 ∧
      Memory.read unwritten.pkt (unwritten.bitpos / 8) = none := by decide

/-- One state for each side of PERIOD: a sum of PERIOD - 1 and a sum of PERIOD. -/
theorem test_witness_AdvanceWrapsExactlyAtPeriod :
    (stA 0xE7 0 0 0 0 0 0 0).phase < Config.exampleA.period ∧ 0xE7 + Config.exampleA.delta 0 < Config.exampleA.period ∧
      (stA 0xE8 0 0 0 0 0 0 0).phase < Config.exampleA.period ∧ Config.exampleA.period ≤ 0xE8 + Config.exampleA.delta 0 := by
  decide

theorem test_witness_DriveTakesTheTopPhaseBit :
    (drive (stA 0x7F 0 0 0 0 0 0 1)).out = 0 ∧ (drive (stA 0x80 0 0 0 0 0 0 0)).out = 1 ∧ 0x80 < Config.exampleA.period := by
  decide

theorem test_witness_FrameFetchesOneBit :
    (stA 0 0 0 0 8 2 1 0).bitpos < Config.exampleA.cap * 8 ∧ (stA 0 0 0 0 8 2 1 0).bitpos % 8 = 0 ∧
      Memory.read (stA 0 0 0 0 8 2 1 0).pkt (8 / 8) = some 0x3C ∧
      unwritten.bitpos < unwritten.cfg.cap * 8 ∧ Memory.read unwritten.pkt (unwritten.bitpos / 8) = none ∧
      (stA 0 0 0 0 63 8 1 0).bitpos < Config.exampleA.cap * 8 ∧ (stA 0 0 0 0 63 8 1 0).bitpos % 8 ≠ 0 := by decide

/-- The largest position of Config A (2.5), and a sample inside a baud interval. -/
theorem test_witness_CountAdvancesOneSample :
    regs (count (stA 0 0 0 3 63 8 1 0)) = regs (stA 0 0 0 0 64 8 1 0) ∧
      regs (count (stA 0 0 0 2 5 1 1 0)) = regs (stA 0 0 0 3 5 1 1 0) ∧ 63 < 8 * 8 ∧ 8 ≤ Config.exampleA.cap := by decide

theorem test_witness_TickIsIgnoredWhileTimerStopped : idle.ten = 0 := by decide

theorem test_witness_EndTestStopsTheRun :
    (stA 0x40 0 0x01 0 8 1 1 0).ten = 1 ∧ (stA 0x40 0 0x01 0 8 1 1 0).bitpos = (stA 0x40 0 0x01 0 8 1 1 0).length * 8 ∧
      mid.ten = 1 ∧ mid.bitpos ≠ mid.length * 8 ∧ (view (exec .tick mid) id).isSome = true := by decide

/-- Inside a baud interval: the last tick of it, and one before the last. -/
theorem test_witness_TickWithinABaudInterval :
    mid.Inv ∧ mid.cf = 1 ∧ mid.bitpos ≠ mid.length * 8 ∧ mid.sib ≠ 0 ∧ mid.sib + 1 ≠ mid.cfg.spb ∧
      lastSample.Inv ∧ lastSample.cf = 1 ∧ lastSample.bitpos ≠ lastSample.length * 8 ∧ lastSample.sib ≠ 0 ∧
      lastSample.sib + 1 = lastSample.cfg.spb := by decide

theorem test_witness_TickLoadsAByte :
    (stA 0x40 0 0x01 0 8 2 1 0).Inv ∧ (stA 0x40 0 0x01 0 8 2 1 0).cf = 1 ∧ 8 ≠ 2 * 8 ∧
      (stA 0x40 0 0x01 0 8 2 1 0).sib = 0 ∧ 8 % 8 = 0 ∧
      Memory.read (stA 0x40 0 0x01 0 8 2 1 0).pkt (8 / 8) = some 0x3C := by decide

theorem test_witness_TickShiftsTheByte :
    (stA 0x60 0 0xA5 0 1 2 1 0).Inv ∧ (stA 0x60 0 0xA5 0 1 2 1 0).cf = 1 ∧ 1 ≠ 2 * 8 ∧
      (stA 0x60 0 0xA5 0 1 2 1 0).sib = 0 ∧ 1 % 8 ≠ 0 := by decide

/-- Every operation answers a next state somewhere: the hypothesis of the frames, of the access rights, of phase
continuity and of R26. -/
theorem test_witness_OperationsAnswer :
    ([.nop, .reset, .pktwr 0 0xFF, .start 2, .tick, .poll] : List Instr).all
      (fun i => (view (exec i idle) id).isSome) = true ∧
      ([.nop, .reset, .tick, .poll] : List Instr).all (fun i => (view (exec i mid) id).isSome) = true ∧
      idle.cf = idle.ten ∧ mid.cf = mid.ten ∧ idle.Fits ∧ mid.Fits ∧ mid.ten = 1 ∧ mid.bitpos ≠ mid.length * 8 := by
  decide

/-- The two modes, with the operands of each row at their bounds; the final tick and a sample tick. -/
theorem test_witness_ModeTableHolds :
    idle.Inv ∧ idle.mode = .idle ∧ 7 < idle.cfg.cap ∧ 8 ≤ idle.cfg.cap ∧ mid.Inv ∧ mid.mode = .running ∧
      mid.bitpos ≠ mid.length * 8 ∧ (view (exec .tick mid) id).isSome = true ∧ (stA 0x40 0 0x01 0 8 1 1 0).Inv ∧
      (stA 0x40 0 0x01 0 8 1 1 0).mode = .running ∧ 8 = (stA 0x40 0 0x01 0 8 1 1 0).length * 8 := by decide

theorem test_witness_RefusedExactlyOnAViolation :
    unwritten.Inv ∧ violation .tick unwritten = some .packetByteUnwritten ∧ idle.Inv ∧
      violation (.start 9) idle = some .lengthExceedsCapacity := by decide

theorem test_witness_PermittedOperationsComplete :
    mid.Inv ∧ violation .tick mid = none ∧ idle.Inv ∧ violation (.pktwr 7 0) idle = none ∧
      violation (.start 8) idle = none := by decide

theorem test_witness_AccessesStayInsideThePacket :
    (stA 0 0 0 0 15 2 1 0).Inv ∧ (stA 0 0 0 0 15 2 1 0).cf = 1 ∧ 15 ≠ 2 * 8 := by decide

/-- The first absent index of Config A. -/
theorem test_witness_AbsentIndexFaults :
    (stA 0 0 0 0 64 9 1 0).ten = 1 ∧ (stA 0 0 0 0 64 9 1 0).bitpos ≠ (stA 0 0 0 0 64 9 1 0).length * 8 ∧
      (stA 0 0 0 0 64 9 1 0).sib = 0 ∧ 64 % 8 = 0 ∧ 64 < 2 ^ Config.exampleA.bw ∧ Config.exampleA.cap ≤ 64 / 8 := by decide

theorem test_witness_StepKeepsTheRanges :
    ({ mid with trace := [0x40000000] } : State).Inv ∧
      (view (step { mid with trace := [0x40000000] }) id).isSome = true := by decide

theorem test_witness_StepKeepsTheClosedForm :
    ({ lastSample with trace := [0x40000000] } : State).RunInv ∧
      view (step { lastSample with trace := [0x40000000] }) (fun t => (t.mode, t.bitpos)) = some (.running, 8) := by decide

/-- The premises of every statement about runs: the empty packet and a packet of both written bytes. -/
theorem test_witness_Runs :
    idle.Inv ∧ idle.cf = 0 ∧ 2 ≤ idle.cfg.cap ∧ idle.Written 2 ∧ idle.Written 0 ∧ ¬idle.Written 3 := by decide

theorem test_witness_EmptyPacketEmitsNothing : idle.cf = 0 := by decide

/-- Two states that differ in every register START overwrites, and in CUR and OUT. -/
theorem test_witness_RunDependsOnThePacketAlone :
    idle.cfg = (stA 0x11 1 0xFF 2 3 1 0 0).cfg ∧
      (∀ j < 2, Memory.read idle.pkt j = Memory.read (stA 0x11 1 0xFF 2 3 1 0 0).pkt j) ∧
      view (exec (.start 2) idle) (fun u => (u.cur, u.out)) = some (0x00, 1) ∧
      view (exec (.start 2) (stA 0x11 1 0xFF 2 3 1 0 0)) (fun u => (u.cur, u.out)) = some (0xFF, 0) ∧
      view (ticks 1 (stA 0 0 0 0 0 2 1 0)) regs = some ⟨0x18, 0, 0xA5, 1, 0, 2, 1, 1, 0⟩ := by decide

theorem test_witness_PollsAndNopsDoNotDisturbARun :
    ([.poll, .tick, .nop] : List Instr).all passiveOp = true ∧
      (view (execAll ([.poll, .tick, .nop] : List Instr) mid) State.resp) = some (some 1) ∧
      (view (execAll (([.poll, .tick, .nop] : List Instr).filter (· = .tick)) mid) State.resp) = some none := by decide

/-- Exactly the ticks the run needs, and one too few. -/
theorem test_witness_RunEndsWhenItsTicksArrive :
    ({ lastSample with trace := [0x50000000, 0x40000000, 0x00000000, 0x40000000] } : State).Inv ∧
      lastSample.cf = 1 ∧ lastSample.Written lastSample.length ∧
      ({ lastSample with trace := [0x50000000, 0x40000000, 0x00000000, 0x40000000] } : State).TracePassive ∧
      lastSample.ticksNeeded = 2 ∧
      ({ lastSample with trace := [0x50000000, 0x40000000, 0x00000000, 0x40000000] } : State).ticksToCome = 2 := by decide

theorem test_witness_RunDoesNotEndWithoutItsTicks :
    ({ lastSample with trace := [0x40000000] } : State).Inv ∧ lastSample.cf = 1 ∧
      ({ lastSample with trace := [0x40000000] } : State).TracePassive ∧
      ({ lastSample with trace := [0x40000000] } : State).ticksToCome < lastSample.ticksNeeded ∧
      (view (steps 1 { lastSample with trace := [0x40000000] }) id).isSome = true := by decide

/-- `rst` with `tick`, as R131 speaks of it. -/
def resetWithTick : Pins := ⟨true, false, 0, 0, false, 0, true⟩

theorem test_witness_ResetWinsOverOtherStrobes :
    resetWithTick.rst = true ∧ pinsLawful mid.cfg resetWithTick = true ∧
      (view (execAll (pinsStrobes resetWithTick) mid) id).isSome = true ∧
      refusal (execAll (pinsStrobes resetWithTick) unwritten) = some .packetByteUnwritten := by decide

theorem test_witness_PseudoInstructionsExpandAsWritten :
    idle.Inv ∧ idle.cf = 0 ∧ 2 ≤ idle.cfg.cap ∧ idle.Written 2 ∧ mid.Inv ∧ mid.cf = 1 ∧ mid.Written mid.length ∧
      lastSample.ticksNeeded = 2 ∧ idle.cfg.cap < 9 ∧ unwritten.Inv ∧
      refusal (ticks 1 unwritten) = some .packetByteUnwritten := by decide

/-- A START that is accepted over a byte that was never written (2.10). -/
theorem test_witness_transmit_unwritten :
    (view (exec (.start 1) { idle with pkt := [] }) fun u => refusal (ticks 1 u)) =
      some (some .packetByteUnwritten) := by decide

theorem test_witness_RefusedLinesAreKept :
    refusal (performWord 0x30000900 idle) = some .lengthExceedsCapacity ∧ Instr.wellFormed (.start 9) = true ∧
      (0x30000900 : Word) = encode (.start 9) := by decide

/-- The bounds of k for the packet of two bytes: 0 and 64. -/
theorem test_witness_RunCountsTheTicksBeforeIt :
    idle.Inv ∧ idle.cf = 0 ∧ 2 ≤ idle.cfg.cap ∧ idle.Written 2 ∧ 64 ≤ 8 * 2 * idle.cfg.spb := by decide

end Sys2Proof.Tests
end

section
/-!
The scope of 00_scope.md: the widths that follow from a configuration (R6, R8) and the configurations the model refuses
(R7).
-/
namespace Sys2Proof

/-- The width SW is built from is the least exponent whose power of two reaches n (R6). -/
theorem ceilLog2_le_iff (n m : Nat) : ceilLog2 n ≤ m ↔ n ≤ 2 ^ m := by
  have hpow : 0 < 2 ^ m := Nat.two_pow_pos m
  unfold ceilLog2
  split
  case isTrue hn => omega
  case isFalse hn =>
    have hlog : Nat.log2 (n - 1) < m ↔ n - 1 < 2 ^ m := Nat.log2_lt (by omega)
    omega

/-- Both sides are the least such exponent. -/
theorem ceilLog2_eq_clog (n : Nat) : ceilLog2 n = Nat.clog 2 n :=
  eq_of_forall_ge_iff fun m => (ceilLog2_le_iff n m).trans (Nat.clog_le_iff_le_pow Nat.one_lt_two).symm

theorem Config.period_eq_tableSize_mul (c : Config) : c.period = c.tableSize * 2 ^ 7 := pow_add 2 c.k 7

theorem Config.sw_eq_max_clog (c : Config) : c.sw = max 1 (Nat.clog 2 c.spb) := by
  rw [Config.sw, ceilLog2_eq_clog]

/-- Settles O3: SW is the library's ceiling of the logarithm, and the bounds on SPB and CAP x 8 are the laws of the
widths. -/
theorem widthsFollowFromTheParameters : Obligations.WidthsFollowFromTheParameters := fun c =>
  ⟨c.period_eq_tableSize_mul, rfl, rfl, fun _ => rfl, c.sw_eq_max_clog, c.spb_le_two_pow_sw, rfl,
    c.bits_lt_two_pow_bw le_rfl⟩

theorem Config.ofParameters_eq_none_iff (k dm ds spb lw cap : Nat) :
    Config.ofParameters k dm ds spb lw cap = none ↔ ¬Config.Ok k dm ds spb lw cap := by
  rw [Config.ofParameters, dite_eq_right_iff]
  exact forall_congr' fun _ => iff_false_intro (Option.some_ne_none _)

theorem Config.ofParameters_eq_some_iff (k dm ds spb lw cap : Nat) (c : Config) :
    Config.ofParameters k dm ds spb lw cap = some c ↔
      c.k = k ∧ c.deltaMark = dm ∧ c.deltaSpace = ds ∧ c.spb = spb ∧ c.lw = lw ∧ c.cap = cap := by
  constructor
  · intro h
    unfold Config.ofParameters at h
    split at h
    case isTrue => cases h; exact ⟨rfl, rfl, rfl, rfl, rfl, rfl⟩
    case isFalse => cases h
  · rintro ⟨rfl, rfl, rfl, rfl, rfl, rfl⟩
    exact dif_pos c.ok

/-- Settles O1: none is answered exactly where R7 fails, and a configuration that is answered holds the six numbers. -/
theorem illFormedConfigurationIsRefused : Obligations.IllFormedConfigurationIsRefused := fun k dm ds spb lw cap =>
  ⟨Config.ofParameters_eq_none_iff k dm ds spb lw cap, fun c => (Config.ofParameters_eq_some_iff k dm ds spb lw cap c).mp⟩

end Sys2Proof
end

section
/-!
The state of 10_state.md: which operation writes what (R28 to R30), CF = TEN (R26), and the ranges of the registers
(R13, R25), which hold after reset (R31) and which every step keeps.
-/
namespace Sys2Proof

/-! ## The agents (00_scope.md R5) -/

/-- The operations of the foreground (00_scope.md R5). -/
theorem Instr.agent_eq_fg {i : Instr} (h : i.agent = .fg) :
    (∃ index byte, i = .pktwr index byte) ∨ (∃ a, i = .start a) ∨ i = .poll := by
  cases i <;> simp_all [Instr.agent]

/-- The one operation of the interrupt context. -/
theorem Instr.agent_eq_irq {i : Instr} (h : i.agent = .irq) : i = .tick := by
  cases i <;> simp_all [Instr.agent]

end Sys2Proof

namespace Sys2Proof.Machine

/-! ## The invariant: reset and every step (R13, R25, R26, R31) -/

/-- The ranges of a run give its counters and its length room in their registers. -/
theorem State.RunRanges.fit_widths {s : State} (h : s.RunRanges) :
    s.sib < 2 ^ s.cfg.sw ∧ s.bitpos < 2 ^ s.cfg.bw ∧ s.length < 2 ^ s.cfg.lw := by
  obtain ⟨hsib, hbitpos, hlength⟩ := h
  exact ⟨hsib.trans_le s.cfg.spb_le_two_pow_sw, s.cfg.bits_lt_two_pow_bw (by omega),
    hlength.trans_lt s.cfg.cap_lt_two_pow_lw⟩

/-- With CF and TEN at 0 the invariant asks for the widths alone. -/
theorem State.Fits.inv_of_stopped {s : State} (h : s.Fits) (hcf : s.cf = 0) (hten : s.ten = 0) : s.Inv :=
  ⟨h, hcf.trans hten.symm, fun hmode => by simp [hcf] at hmode⟩

theorem State.resetOf_fits (c : Config) : (State.resetOf c).Fits :=
  ⟨c.period_pos, Nat.two_pow_pos _, Nat.two_pow_pos _, Nat.two_pow_pos _, Memory.wf_nil, List.forall_mem_nil _⟩

/-- Settles O37: with CF = 0 the invariant asks of the registers only that they fit, and the closed form of a run asks
for nothing. -/
theorem resetStateHasTheInvariant : Obligations.ResetStateHasTheInvariant := by
  refine ⟨⟨Config.implementation, rfl⟩, fun c => ?_⟩
  have hidle : (State.resetOf c).mode = .idle := rfl
  have hinv : (State.resetOf c).Inv := (State.resetOf_fits c).inv_of_stopped rfl rfl
  exact ⟨⟨hinv, fun hrunning => by simp [hidle] at hrunning⟩, rfl, rfl, hidle, Memory.read_nil, rfl, rfl⟩

/-- RESET leaves free values, each cut to the width of its register (R108). -/
theorem execReset_keeps_inv {s t : State} (h : execReset s = .next t) : t.Inv := by
  rw [execReset_eq] at h
  cases h
  exact State.Fits.inv_of_stopped
    ⟨trunc_lt _ _, trunc_lt _ _, trunc_lt _ _, trunc_lt _ _, Memory.wf_nil, List.forall_mem_nil _⟩ rfl rfl

/-- PKTWR lists one more index, and that is below CAP (R109). -/
theorem execPktwr_keeps_inv {s t : State} {index : Nat} {byte : Byte} (hs : s.Inv)
    (h : execPktwr index byte s = .next t) : t.Inv := by
  obtain ⟨-, hindex, rfl⟩ := execPktwr_next h
  obtain ⟨⟨hphase, hsib, hbitpos, hlength, hwf, hcells⟩, hflags, hrun⟩ := hs
  refine ⟨⟨hphase, hsib, hbitpos, hlength, Memory.write_wf index byte hwf, fun c hc => ?_⟩, hflags, hrun⟩
  rcases Memory.mem_write hc with rfl | hc
  · exact hindex
  · exact hcells c hc

/-- START enters a run at its first position (R110). -/
theorem execStart_keeps_inv {s t : State} {a : Nat} (hs : s.Inv) (h : execStart a s = .next t) : t.Inv := by
  obtain ⟨-, hcap, rfl⟩ := execStart_next h
  obtain ⟨⟨-, -, -, -, hpkt⟩, -, -⟩ := hs
  have hrun : State.RunRanges { s with phase := 0, tone := 0, sib := 0, bitpos := 0, length := a, ten := 1, cf := 1 } :=
    ⟨s.cfg.spb_pos, Nat.zero_le _, hcap⟩
  obtain ⟨hsib, hbitpos, hlength⟩ := hrun.fit_widths
  exact ⟨⟨s.cfg.period_pos, hsib, hbitpos, hlength, hpkt⟩, rfl, fun _ => hrun⟩

/-- TICK: the end test stops the run before BITPOS could pass LENGTH x 8, and a sample tick counts SIB below SPB (R93,
R96). -/
theorem execTick_keeps_inv {s t : State} (hs : s.Inv) (h : execTick s = .next t) : t.Inv := by
  rcases execTick_next h with ⟨-, rfl⟩ | ⟨-, -, rfl⟩ | ⟨hten, hend, -⟩
  case inl => exact hs
  case inr.inl => exact State.Fits.inv_of_stopped hs.1 rfl rfl
  case inr.inr =>
    have ⟨⟨_, _, _, _, hpkt⟩, hflags, _⟩ := hs
    have hranges := hs.running (hflags.trans hten)
    obtain ⟨tone, cur, rfl, -⟩ := execTick_next_sample hranges hend h
    obtain ⟨-, hsib, hbitpos, hlength⟩ := hranges
    have hrun : (if s.sib + 1 = s.cfg.spb then 0 else s.sib + 1) < s.cfg.spb ∧
        (if s.sib + 1 = s.cfg.spb then s.bitpos + 1 else s.bitpos) ≤ s.length * 8 ∧ s.length ≤ s.cfg.cap := by
      split <;> omega
    obtain ⟨hsib', hbitpos', hlength'⟩ := State.RunRanges.fit_widths (s := { s with sib := _, bitpos := _ }) hrun
    exact ⟨⟨Nat.mod_lt _ s.cfg.period_pos, hsib', hbitpos', hlength', hpkt⟩, hflags, fun _ => hrun⟩

/-- Every operation that answers keeps the invariant. -/
theorem exec_keeps_inv {i : Instr} {s t : State} (hs : s.Inv) (h : exec i s = .next t) : t.Inv := by
  cases i with
  | nop => cases h; exact hs
  | reset => exact execReset_keeps_inv h
  | pktwr index byte => exact execPktwr_keeps_inv hs h
  | start a => exact execStart_keeps_inv hs h
  | tick => exact execTick_keeps_inv hs h
  | poll => cases h; exact hs

/-- Settles O38: a step performs one operation, and the words to come have no part in the invariant. -/
theorem stepKeepsTheRanges : Obligations.StepKeepsTheRanges := by
  intro s t hs h
  rcases step_next h with ⟨-, rfl⟩ | ⟨w, rest, i, -, -, hexec⟩
  · exact hs
  · have hrest : (s.setTrace rest).Inv := hs
    exact exec_keeps_inv hrest hexec

/-- Settles O35: short of the end position, BITPOS is below LENGTH x 8 and LENGTH at most CAP (R25). -/
theorem accessesStayInsideThePacket : Obligations.AccessesStayInsideThePacket := by
  intro s hs hcf hend
  obtain ⟨-, -, hbitpos, hlength⟩ := hs.running hcf
  have hindex : s.byteIndex = s.bitpos / 8 := s.byteIndex_eq (s.cfg.bits_lt_two_pow_bw (by omega))
  omega

/-! ## Frames (R28 to R30) -/

/-- TICK does not write PKT. -/
theorem execTick_pkt {s t : State} (h : execTick s = .next t) : t.pkt = s.pkt := by
  rw [execTick_frame h]

/-- The frame of START. -/
theorem execStart_frame {s t : State} {a : Nat} (h : execStart a s = .next t) :
    t = { s with phase := t.phase, tone := t.tone, sib := t.sib, bitpos := t.bitpos, length := t.length, cf := t.cf,
                 ten := t.ten } := by
  obtain ⟨-, -, rfl⟩ := execStart_next h
  rfl

/-- The frame of PKTWR: PKT alone, at its own index alone. -/
theorem execPktwr_frame {s t : State} {index : Nat} {byte : Byte} (h : execPktwr index byte s = .next t) :
    t = { s with pkt := t.pkt } ∧ ∀ a, a ≠ index → Memory.read t.pkt a = Memory.read s.pkt a := by
  obtain ⟨-, -, rfl⟩ := execPktwr_next h
  exact ⟨rfl, fun a ha => Memory.read_write_other s.pkt byte ha⟩

/-- What stands outside the block: no operation writes the configuration or the words to come, and only POLL answers
(log entries 1, 8, 10). -/
theorem exec_keeps_outside {i : Instr} {s t : State} (h : exec i s = .next t) :
    t.cfg = s.cfg ∧ t.trace = s.trace ∧ (i ≠ .poll → t.resp = s.resp) := by
  cases i with
  | nop => cases h; exact ⟨rfl, rfl, fun _ => rfl⟩
  | reset => cases h; exact ⟨rfl, rfl, fun _ => rfl⟩
  | pktwr index byte => rw [(execPktwr_frame h).1]; exact ⟨rfl, rfl, fun _ => rfl⟩
  | start a => rw [execStart_frame h]; exact ⟨rfl, rfl, fun _ => rfl⟩
  | tick => rw [execTick_frame h]; exact ⟨rfl, rfl, fun _ => rfl⟩
  | poll => cases h; exact ⟨rfl, rfl, fun hpoll => absurd rfl hpoll⟩

/-- Settles O29: the frames of the operations, one by one. -/
theorem operationsWriteOnlyTheirOwnState : Obligations.OperationsWriteOnlyTheirOwnState := by
  intro i s t h
  obtain ⟨hcfg, htrace, hresp⟩ := exec_keeps_outside h
  refine ⟨hcfg, htrace, hresp, ?nop, ?poll, ?tick, ?start, ?pktwr⟩
  case nop => rintro rfl; cases h; rfl
  case poll => rintro rfl; cases h; rfl
  case tick => rintro rfl; exact ⟨execTick_frame h, fun a => congrArg (Memory.read · a) (execTick_pkt h)⟩
  case start =>
    rintro n rfl
    have hpkt : t.pkt = s.pkt := by rw [execStart_frame h]
    exact ⟨execStart_frame h, fun a => congrArg (Memory.read · a) hpkt⟩
  case pktwr => rintro index byte rfl; exact execPktwr_frame h

/-! ## Access rights (R29) -/

/-- While RUNNING the foreground gets an answer from POLL alone, and PKTWR and START are refused. -/
theorem exec_foreground_running {i : Instr} {s t : State} (hi : i.agent = .fg) (hcf : s.cf = 1)
    (h : exec i s = .next t) : t = { s with resp := t.resp } := by
  rcases Instr.agent_eq_fg hi with ⟨index, byte, rfl⟩ | ⟨a, rfl⟩ | rfl
  · exact absurd ((execPktwr_next h).1.symm.trans hcf) (by decide)
  · exact absurd ((execStart_next h).1.symm.trans hcf) (by decide)
  · cases h; rfl

/-- The foreground writes neither CUR nor OUT. -/
theorem exec_foreground_keeps_cur_out {i : Instr} {s t : State} (hi : i.agent = .fg) (h : exec i s = .next t) :
    t.cur = s.cur ∧ t.out = s.out := by
  rcases Instr.agent_eq_fg hi with ⟨index, byte, rfl⟩ | ⟨a, rfl⟩ | rfl
  · rw [(execPktwr_frame h).1]; exact ⟨rfl, rfl⟩
  · rw [execStart_frame h]; exact ⟨rfl, rfl⟩
  · cases h; exact ⟨rfl, rfl⟩

/-- A TICK is ignored while the timer is stopped (R92). -/
theorem execTick_of_stopped {s : State} (h : s.ten = 0) : execTick s = .next s := if_pos h

/-- Settles O30: by the operations each agent has. -/
theorem agentsKeepTheirAccessRights : Obligations.AgentsKeepTheirAccessRights := by
  intro i s t h
  refine ⟨fun hfg hmode => ?fgRunning, fun hirq hten => ?irqIdle, fun hfg => ?fg, fun hirq => ?irq⟩
  case fgRunning => exact exec_foreground_running hfg (s.mode_eq_running.1 hmode) h
  case irqIdle =>
    obtain rfl := Instr.agent_eq_irq hirq
    exact Host.Outcome.next.inj (h.symm.trans (execTick_of_stopped hten))
  case fg => exact exec_foreground_keeps_cur_out hfg h
  case irq =>
    obtain rfl := Instr.agent_eq_irq hirq
    rw [execTick_frame h]
    exact ⟨rfl, rfl, rfl⟩

/-! ## CF and TEN (R26) -/

/-- FRAME, where step 2 performs it, writes neither CF nor TEN. -/
theorem frameStep_flags {s f : State} (h : frameStep s = .next f) : f.cf = s.cf ∧ f.ten = s.ten := by
  rcases frameStep_next h with ⟨-, rfl⟩ | ⟨-, hf, -⟩
  · exact ⟨rfl, rfl⟩
  · rw [hf]; exact ⟨rfl, rfl⟩

/-- What TICK does to the flags: the final tick clears both, any other tick keeps both (R93). -/
theorem execTick_flags {s t : State} (h : execTick s = .next t) :
    (s.ten = 1 ∧ s.bitpos = s.length * 8 ∧ t.cf = 0 ∧ t.ten = 0) ∨
      (¬(s.ten = 1 ∧ s.bitpos = s.length * 8) ∧ t.cf = s.cf ∧ t.ten = s.ten) := by
  rcases execTick_next h with ⟨hten, rfl⟩ | ⟨hten, hend, rfl⟩ | ⟨-, hend, f, hf, rfl⟩
  · exact .inr ⟨fun hfinal => absurd (hten.symm.trans hfinal.1) (by decide), rfl, rfl⟩
  · exact .inl ⟨hten, hend, rfl, rfl⟩
  · refine .inr ⟨fun hfinal => hend hfinal.2, ?_⟩
    have hflags : f.cf = s.cf ∧ f.ten = s.ten := frameStep_flags hf
    rw [produceSample_frame]
    exact hflags

/-- What every operation does to the flags: RESET and the final tick clear both, START sets both, any other operation
keeps both. -/
theorem exec_flags {i : Instr} {s t : State} (h : exec i s = .next t) :
    ((i = .reset ∨ i = .tick ∧ s.ten = 1 ∧ s.bitpos = s.length * 8) ∧ t.cf = 0 ∧ t.ten = 0) ∨
      ((∃ a, i = .start a) ∧ t.cf = 1 ∧ t.ten = 1) ∨
      (i ≠ .reset ∧ (∀ a, i ≠ .start a) ∧ ¬(i = .tick ∧ s.ten = 1 ∧ s.bitpos = s.length * 8) ∧
        t.cf = s.cf ∧ t.ten = s.ten) := by
  cases i with
  | nop => cases h; simp
  | reset => cases h; exact .inl ⟨.inl rfl, rfl, rfl⟩
  | pktwr index byte => rw [(execPktwr_frame h).1]; simp
  | start a =>
    obtain ⟨-, -, rfl⟩ := execStart_next h
    exact .inr (.inl ⟨⟨a, rfl⟩, rfl, rfl⟩)
  | tick =>
    rcases execTick_flags h with ⟨hten, hend, hflags⟩ | ⟨hfinal, hflags⟩
    · exact .inl ⟨.inr ⟨rfl, hten, hend⟩, hflags⟩
    · exact .inr (.inr ⟨nofun, nofun, fun htick => hfinal htick.2, hflags⟩)
  | poll => cases h; simp

/-- Settles O32: the three things an operation can do to the flags each keep CF = TEN. -/
theorem flagEqualsTimerEnable : Obligations.FlagEqualsTimerEnable := by
  refine ⟨fun _ => rfl, fun i s t hs h => ?_⟩
  rcases exec_flags h with ⟨hi, hcf, hten⟩ | ⟨⟨a, rfl⟩, hcf, hten⟩ | ⟨hreset, hstart, hfinal, hcf, hten⟩
  case inl =>
    have hstart : ∀ a, i ≠ .start a := by
      rintro a rfl
      simp at hi
    exact ⟨hcf.trans hten.symm, fun _ => ⟨hcf, hten⟩, fun a ha => absurd ha (hstart a),
      fun _ _ _ => ⟨hcf, hten⟩, fun hreset _ hfinal => (hi.elim hreset hfinal).elim⟩
  case inr.inl =>
    exact ⟨hcf.trans hten.symm, nofun, fun _ _ => ⟨hcf, hten⟩, nofun, fun _ hstart => absurd rfl (hstart a)⟩
  case inr.inr =>
    exact ⟨hcf.trans (hs.trans hten.symm), fun h => absurd h hreset, fun a h => absurd h (hstart a),
      fun hi ht hb => absurd ⟨hi, ht, hb⟩ hfinal, fun _ _ _ => ⟨hcf, hten⟩⟩

end Sys2Proof.Machine
end

section
/-!
The command word of 30_encoding.md: decoding and encoding undo each other (R59, R60), the opcode table and the decoder
agree (R61), and exactly the words that no row matches are refused (R64).
-/
namespace Sys2Proof

/-! ## Decode after encode (R59 to R61) -/

theorem decode_encode_pktwr {index : Nat} (h : index < 65536) (byte : Byte) :
    decode (encode (.pktwr index byte)) = .ok (.pktwr index byte) := by
  obtain ⟨hop, hzero, ha, hb⟩ := packFields_fields (op := 2) (b := byte) (by decide) h
  obtain ⟨-, -, hdecode, -⟩ := decode_of_fields hzero
  rw [encode, hdecode hop, ha, hb]

theorem decode_encode_start {length : Nat} (h : length < 65536) :
    decode (encode (.start length)) = .ok (.start length) := by
  obtain ⟨hop, hzero, ha, hb⟩ := packFields_fields (op := 3) (b := 0) (by decide) h
  obtain ⟨-, -, -, hdecode, -⟩ := decode_of_fields hzero
  exact (hdecode hop hb).trans (by rw [ha])

/-- Settles O5: the operations without operand are four words, and the fields of the other two are the fields packed. -/
theorem decodeOfEncode : Obligations.DecodeOfEncode := by
  intro i hi
  cases i with
  | nop => rfl
  | reset => rfl
  | pktwr index byte => exact decode_encode_pktwr (of_decide_eq_true hi) byte
  | start length => exact decode_encode_start (of_decide_eq_true hi)
  | tick => rfl
  | poll => rfl

/-! ## Encode after decode (R59, R64) -/

/-- A word whose field ZERO is 0 is its other three fields packed. -/
theorem packFields_of_zero_eq_zero {w : Word} (h : w.zero = 0) : packFields w.op w.a w.b.toNat = w := by
  obtain ⟨hw, -, -, -⟩ := word_fields w
  rw [h, Nat.zero_mul, Nat.add_zero] at hw
  rw [packFields, ← hw, BitVec.ofNat_toNat, BitVec.setWidth_eq]

/-- Settles O6: the fields the decoder reads are the fields the encoder packs, and those it does not read are 0. -/
theorem encodeOfDecode : Obligations.EncodeOfDecode := by
  intro w i h
  obtain ⟨hzero, hi⟩ := decode_ok h
  obtain ⟨-, -, -, ha⟩ := word_fields w
  have hw := packFields_of_zero_eq_zero hzero
  rcases hi with ⟨rfl, hop, ha0, hb0⟩ | ⟨rfl, hop, ha0, hb0⟩ | ⟨rfl, hop⟩ | ⟨rfl, hop, hb0⟩ |
    ⟨rfl, hop, ha0, hb0⟩ | ⟨rfl, hop, ha0, hb0⟩
  case inr.inr.inl => exact ⟨decide_eq_true ha, by rwa [hop] at hw⟩
  case inr.inr.inr.inl => exact ⟨decide_eq_true ha, by rwa [hop, hb0] at hw⟩
  all_goals exact ⟨rfl, by rw [hop, ha0, (byte_eq_zero_iff _).1 hb0] at hw; exact hw⟩

/-! ## The opcode table (R61) -/

/-- The command word of a well-formed instruction matches the row of its mnemonic. -/
theorem encoding_matches_row (i : Instr) : Laws.EncodingMatchesRow.Statement i := by
  cases i with
  | nop => exact Laws.EncodingMatchesRow.nop
  | reset => exact Laws.EncodingMatchesRow.reset
  | pktwr index byte => exact Laws.EncodingMatchesRow.pktwr index byte
  | start length => exact Laws.EncodingMatchesRow.start length
  | tick => exact Laws.EncodingMatchesRow.tick
  | poll => exact Laws.EncodingMatchesRow.poll

/-- A word that decodes matches the row of the instruction it spells. -/
theorem exists_row_of_decode {w : Word} {i : Instr} (h : decode w = .ok i) :
    ∃ row ∈ opcodeTable, row.mnemonic = i.mnemonic ∧ row.agent = i.agent ∧ w &&& row.mask = row.pattern := by
  obtain ⟨hi, rfl⟩ := encodeOfDecode w i h
  exact encoding_matches_row i hi

theorem decode_of_matches_pktwr {w : Word} (h : w &&& (0xFF000000 : Word) = 0x20000000) :
    decode w = .ok (.pktwr w.a w.b) := by
  obtain ⟨-, -, hrow, -⟩ := row_matches w
  obtain ⟨hzero, hop⟩ := hrow.1 h
  obtain ⟨-, -, hdecode, -⟩ := decode_of_fields hzero
  exact hdecode hop

theorem decode_of_matches_start {w : Word} (h : w &&& (0xFF0000FF : Word) = 0x30000000) :
    decode w = .ok (.start w.a) := by
  obtain ⟨-, -, -, hrow, -⟩ := row_matches w
  obtain ⟨hzero, hop, hb⟩ := hrow.1 h
  obtain ⟨-, -, -, hdecode, -⟩ := decode_of_fields hzero
  exact hdecode hop hb

/-- A row whose mask is the whole word is matched by its pattern alone. -/
theorem eq_of_matches_whole {w p : Word} (h : w &&& (0xFFFFFFFF : Word) = p) : w = p :=
  BitVec.and_allOnes.symm.trans h

/-- A word that matches a row decodes to an instruction of that row. -/
theorem decode_of_row_matches {w : Word} {row : OpcodeRow} (hrow : row ∈ opcodeTable)
    (h : w &&& row.mask = row.pattern) :
    ∃ i, decode w = .ok i ∧ i.mnemonic = row.mnemonic ∧ i.agent = row.agent := by
  simp only [opcodeTable, List.mem_cons, List.not_mem_nil, or_false] at hrow
  rcases hrow with rfl | rfl | rfl | rfl | rfl | rfl
  case inl => cases eq_of_matches_whole h; exact ⟨.nop, rfl, rfl, rfl⟩
  case inr.inl => cases eq_of_matches_whole h; exact ⟨.reset, rfl, rfl, rfl⟩
  case inr.inr.inl => exact ⟨_, decode_of_matches_pktwr h, rfl, rfl⟩
  case inr.inr.inr.inl => exact ⟨_, decode_of_matches_start h, rfl, rfl⟩
  case inr.inr.inr.inr.inl => cases eq_of_matches_whole h; exact ⟨.tick, rfl, rfl, rfl⟩
  case inr.inr.inr.inr.inr => cases eq_of_matches_whole h; exact ⟨.poll, rfl, rfl, rfl⟩

/-- The mnemonics of the table are distinct. -/
theorem row_eq_of_mnemonic_eq :
    ∀ row ∈ opcodeTable, ∀ row' ∈ opcodeTable, row.mnemonic = row'.mnemonic → row = row' := by
  decide

/-- Settles O7: a word that decodes matches the row of its instruction's mnemonic, and no other row has it. -/
theorem opcodeTableSelectsTheCommand : Obligations.OpcodeTableSelectsTheCommand := by
  refine fun w => ⟨fun row hrow => ⟨decode_of_row_matches hrow, ?decoded⟩, decode_of_matches_pktwr,
    decode_of_matches_start, ?unique⟩
  case decoded =>
    rintro ⟨i, hi, hmnemonic, -⟩
    obtain ⟨row', hrow', hmnemonic', -, hmatch⟩ := exists_row_of_decode hi
    obtain rfl := row_eq_of_mnemonic_eq row' hrow' row hrow (hmnemonic'.trans hmnemonic)
    exact hmatch
  case unique =>
    intro row hrow row' hrow' h h'
    obtain ⟨i, hi, hmnemonic, -⟩ := decode_of_row_matches hrow h
    obtain ⟨j, hj, hmnemonic', -⟩ := decode_of_row_matches hrow' h'
    obtain rfl : i = j := Except.ok.inj (hi.symm.trans hj)
    exact row_eq_of_mnemonic_eq row hrow row' hrow' (hmnemonic.symm.trans hmnemonic')

/-! ## Operands (R59, R60) -/

/-- Field A is bits 23:8. -/
theorem Word.a_eq (w : Word) : w.a = w.toNat / 256 % 65536 := rfl

/-- Field B is the lowest byte. -/
theorem Word.b_toNat (w : Word) : w.b.toNat = w.toNat % 256 := by
  simp [Word.b, slice]

/-- Settles O8: the operands are the fields A and B, and the word is the sum of its fields. -/
theorem operandsAreUsedAsTheyStand : Obligations.OperandsAreUsedAsTheyStand := by
  intro w
  obtain ⟨hw, -, -, -⟩ := word_fields w
  refine ⟨fun index byte h => ?pktwr, fun length h => ?start⟩
  case pktwr =>
    obtain ⟨hzero, hi⟩ := decode_ok h
    simp only [reduceCtorEq, false_and, false_or, or_false, Instr.pktwr.injEq] at hi
    obtain ⟨⟨rfl, rfl⟩, hop⟩ := hi
    exact ⟨w.a_eq, w.b_toNat, by omega⟩
  case start =>
    obtain ⟨hzero, hi⟩ := decode_ok h
    simp only [reduceCtorEq, false_and, false_or, or_false, Instr.start.injEq] at hi
    obtain ⟨rfl, hop, hb⟩ := hi
    rw [byte_eq_zero_iff] at hb
    exact ⟨w.a_eq, by omega⟩

/-! ## Reserved words (R64) -/

/-- No row matches a word exactly where the decoder gives it no operation. -/
theorem no_row_matches_iff_decode_error (w : Word) :
    (∀ row ∈ opcodeTable, w &&& row.mask ≠ row.pattern) ↔ ∃ why, decode w = .error why := by
  constructor
  · intro h
    cases hd : decode w with
    | error why => exact ⟨why, rfl⟩
    | ok i =>
      obtain ⟨row, hrow, -, -, hmatch⟩ := exists_row_of_decode hd
      exact absurd hmatch (h row hrow)
  · rintro ⟨why, hwhy⟩ row hrow hmatch
    obtain ⟨i, hi, -⟩ := decode_of_row_matches hrow hmatch
    cases hi.symm.trans hwhy

/-- The list of R64: the words no row of the table matches, by their fields. -/
theorem no_row_matches_iff_fields (w : Word) :
    (∀ row ∈ opcodeTable, w &&& row.mask ≠ row.pattern) ↔
      6 ≤ w.op ∨ w.zero ≠ 0 ∨ ((w.op = 0 ∨ w.op = 1 ∨ w.op = 4 ∨ w.op = 5) ∧ (w.a ≠ 0 ∨ w.b ≠ 0)) ∨
        (w.op = 3 ∧ w.b ≠ 0) := by
  obtain ⟨hnop, hreset, hpktwr, hstart, htick, hpoll⟩ := row_matches w
  simp only [opcodeTable, List.forall_mem_cons, List.not_mem_nil, IsEmpty.forall_iff, implies_true, and_true, ne_eq,
    hnop, hreset, hpktwr, hstart, htick, hpoll, byte_eq_zero_iff]
  omega

end Sys2Proof

namespace Sys2Proof.Machine

/-- The only refusal of FRAME is that of an unwritten byte (U3). -/
theorem frame_eq_refused {s : State} {r : Refusal} (h : frame s = .refused r) : r = .packetByteUnwritten := by
  rcases andThen_eq_refused.1 h with h | ⟨u, -, h⟩
  · split at h
    · rw [loadByte, State.readPacket_eq] at h
      split at h
      · cases h
      · cases hread : Memory.read s.pkt s.byteIndex with
        | none => rw [hread] at h; exact (Host.Outcome.refused.inj h).symm
        | some b => rw [hread] at h; cases h
    · cases h
  · cases h

/-- The only refusal of TICK is that of its FRAME. -/
theorem execTick_eq_refused {s : State} {r : Refusal} (h : execTick s = .refused r) : r = .packetByteUnwritten := by
  unfold execTick at h
  split_ifs at h
  rcases andThen_eq_refused.1 h with h | ⟨f, -, h⟩
  · unfold frameStep at h
    split at h
    · exact frame_eq_refused h
    · cases h
  · cases h

/-- The refusals of PKTWR, in the order of its tests (R109). -/
theorem execPktwr_eq_refused {s : State} {index : Nat} {byte : Byte} {r : Refusal}
    (h : execPktwr index byte s = .refused r) :
    (s.cf = 1 ∧ r = .pktWriteWhileRunning) ∨ (s.cf = 0 ∧ s.cfg.cap ≤ index ∧ r = .pktIndexOutOfRange) := by
  unfold execPktwr at h
  split_ifs at h with hcf hcap
  · exact .inl ⟨hcf, (Host.Outcome.refused.inj h).symm⟩
  · exact .inr ⟨bit_ne_one.1 hcf, hcap, (Host.Outcome.refused.inj h).symm⟩

/-- The refusals of START, in the order of its tests (R110). -/
theorem execStart_eq_refused {s : State} {a : Nat} {r : Refusal} (h : execStart a s = .refused r) :
    (s.cf = 1 ∧ r = .startWhileRunning) ∨ (s.cf = 0 ∧ s.cfg.cap < a ∧ r = .lengthExceedsCapacity) := by
  unfold execStart at h
  split_ifs at h with hcf hcap
  · exact .inl ⟨hcf, (Host.Outcome.refused.inj h).symm⟩
  · exact .inr ⟨bit_ne_one.1 hcf, hcap, (Host.Outcome.refused.inj h).symm⟩

/-- No operation is refused as a reserved command: that name is the step's own (R64). -/
theorem exec_ne_reservedCommand (i : Instr) (s : State) (w : Word) (why : Reserved) :
    exec i s ≠ .refused (.reservedCommand w why) := by
  intro h
  cases i with
  | nop => cases h
  | reset => cases h
  | pktwr index byte => rcases execPktwr_eq_refused h with ⟨_, h⟩ | ⟨_, _, h⟩ <;> cases h
  | start a => rcases execStart_eq_refused h with ⟨_, h⟩ | ⟨_, _, h⟩ <;> cases h
  | tick => cases execTick_eq_refused h
  | poll => cases h

/-- A step refuses its word as reserved exactly where the decoder gives the word no operation. -/
theorem step_eq_reservedCommand_iff {s : State} {w : Word} {rest : List Word} (h : s.trace = w :: rest)
    (why : Reserved) : step s = .refused (.reservedCommand w why) ↔ decode w = .error why := by
  have hstep : step s = performWord w (s.setTrace rest) := by simp [step, State.nextCommand, h]
  rw [hstep]
  cases hd : decode w with
  | ok i =>
    rw [performWord_of_decode hd]
    exact iff_of_false (exec_ne_reservedCommand i _ w why) nofun
  | error why' => simp [performWord_of_reserved hd]

/-- Settles O9: by the fields, by the decoder, and by the step, which asks the decoder. -/
theorem reservedWordsAreRefused : Obligations.ReservedWordsAreRefused := by
  intro s w rest h
  have hdecode := no_row_matches_iff_decode_error w
  exact ⟨no_row_matches_iff_fields w, hdecode,
    hdecode.trans (exists_congr fun why => (step_eq_reservedCommand_iff h why).symm)⟩

/-- Settles O10: each word is its instruction's encoding. -/
theorem writtenWordsDecode : Obligations.WrittenWordsDecode :=
  ⟨decodeOfEncode .nop rfl, decodeOfEncode .reset rfl, decodeOfEncode (.pktwr 0 0xA5) rfl,
    decodeOfEncode (.pktwr 1 0x3C) rfl, decodeOfEncode (.start 2) rfl, decodeOfEncode .tick rfl,
    decodeOfEncode .poll rfl⟩

end Sys2Proof.Machine
end

section
/-!
The closed form of a run (20_memory.md R51, 42_scheduler.md R105): every step keeps it, the sample ticks of a run over
a written packet complete one after the other, and so the output trace is the closed form.
-/
namespace Sys2Proof.Machine

/-! ## The byte in flight (41_bit_framer.md R82, R83, R87) -/

/-- The byte that holds stream bit i, shifted down to that bit: what CUR holds once FRAME has consumed the bit. -/
def byteInFlight (m : Memory) (i : Nat) : Option Byte := (Memory.read m (i / 8)).map fun (b : Byte) => b >>> (i % 8)

/-- LOADBYTE at a byte boundary. -/
theorem byteInFlight_of_load {m : Memory} {i : Nat} {b : Byte} (hi : i % 8 = 0) (h : Memory.read m (i / 8) = some b) :
    byteInFlight m i = some b := by
  simp [byteInFlight, h, hi]

/-- SHIFT inside a byte. -/
theorem byteInFlight_of_shift {m : Memory} {i : Nat} {b : Byte} (hi : i % 8 ≠ 0) (h : byteInFlight m (i - 1) = some b) :
    byteInFlight m i = some (b >>> 1) := by
  have hbyte : (i - 1) / 8 = i / 8 := by omega
  have hbit : i % 8 = (i - 1) % 8 + 1 := by omega
  rw [byteInFlight, hbyte] at h
  obtain ⟨c, hc, rfl⟩ := Option.map_eq_some_iff.1 h
  rw [byteInFlight, hc, Option.map_some, hbit, BitVec.shiftRight_add]

/-- The stream bit is bit 0 of the byte in flight (R87). -/
theorem streamBit_eq_zero_iff_byteInFlight {m : Memory} {i : Nat} {b : Byte} (h : byteInFlight m i = some b) :
    streamBit m i = some 0 ↔ b.toNat % 2 = 0 := by
  obtain ⟨c, hc, rfl⟩ := Option.map_eq_some_iff.1 h
  rw [streamBit_eq_zero_iff hc, BitVec.toNat_ushiftRight, Nat.shiftRight_eq_div_pow]

/-- DECIDE, on the byte in flight, is the line code (30_encoding.md R57). -/
theorem toneAfter_succ_of_byteInFlight {m : Memory} {i : Nat} {b : Byte} (h : byteInFlight m i = some b) :
    toneAfter m (i + 1) = if b.toNat % 2 = 0 then toneAfter m i ^^^ 1 else toneAfter m i := by
  rw [toneAfter_succ]
  exact if_congr (streamBit_eq_zero_iff_byteInFlight h) rfl rfl

/-! ## Positions in a run -/

/-- After the COUNT of a sample tick, the bit at the position before it has been consumed (R85, R96). -/
theorem bitsConsumed_count {s t : State} (hsib : t.sib = if s.sib + 1 = s.cfg.spb then 0 else s.sib + 1)
    (hbitpos : t.bitpos = if s.sib + 1 = s.cfg.spb then s.bitpos + 1 else s.bitpos) :
    t.bitsConsumed = s.bitpos + 1 := by
  split at hsib
  case isTrue hlast => rw [State.bitsConsumed, if_pos hsib, hbitpos, if_pos hlast]
  case isFalse hinside => rw [State.bitsConsumed, if_neg (by omega), hbitpos, if_neg hinside]

/-- The number of bits consumed, from the number of samples done. -/
theorem bitsConsumed_of_samplesDone {s : State} (hs : s.sib < s.cfg.spb) (hpos : 0 < s.samplesDone) :
    s.bitsConsumed = (s.samplesDone - 1) / s.cfg.spb + 1 := by
  obtain ⟨hsib, hbitpos⟩ := position_of_samplesDone hs
  obtain ⟨d, hd⟩ := Nat.exists_eq_add_one.2 hpos
  simp only [State.bitsConsumed, hsib, hbitpos, hd, Nat.succ_div, Nat.dvd_iff_mod_eq_zero, Nat.add_sub_cancel]
  split <;> rfl

/-! ## Every step keeps the closed form -/

/-- In the middle of a run, a sample tick leaves the tone of the bit at BITPOS, and the byte in flight at that bit. -/
theorem tone_and_byteInFlight_of_sample {s : State} {tone : Bit} {cur : Byte} (hs : s.FollowsPacket)
    (hinside : s.sib ≠ 0 → tone = s.tone ∧ cur = s.cur)
    (hfirst : s.sib = 0 → tone = (if cur.toNat % 2 = 0 then s.tone ^^^ 1 else s.tone) ∧
      (s.bitpos % 8 = 0 → Memory.read s.pkt (s.bitpos / 8) = some cur) ∧ (s.bitpos % 8 ≠ 0 → cur = s.cur >>> 1)) :
    tone = toneAfter s.pkt (s.bitpos + 1) ∧ byteInFlight s.pkt s.bitpos = some cur := by
  obtain ⟨htone, -, -, hcur⟩ := hs
  by_cases h0 : s.sib = 0
  case pos =>
    obtain ⟨hdecide, hload, hshift⟩ := hfirst h0
    have hconsumed : s.bitsConsumed = s.bitpos := if_pos h0
    rw [hconsumed] at htone hcur
    have hflight : byteInFlight s.pkt s.bitpos = some cur := by
      by_cases h8 : s.bitpos % 8 = 0
      · exact byteInFlight_of_load h8 (hload h8)
      · rw [hshift h8]
        exact byteInFlight_of_shift h8 (hcur (by omega))
    exact ⟨by rw [hdecide, htone, toneAfter_succ_of_byteInFlight hflight], hflight⟩
  case neg =>
    obtain ⟨rfl, rfl⟩ := hinside h0
    have hconsumed : s.bitsConsumed = s.bitpos + 1 := if_neg h0
    rw [hconsumed] at htone hcur
    exact ⟨htone, hcur (Nat.succ_pos _)⟩

/-- A sample tick of a run keeps its closed form. -/
theorem execTick_sample_followsPacket {s t : State} (hr : s.ten = 1 ∧ s.RunRanges) (hs : s.FollowsPacket)
    (hend : s.bitpos ≠ s.length * 8) (h : execTick s = .next t) : t.FollowsPacket := by
  obtain ⟨tone, cur, ht, hinside, hfirst⟩ := execTick_next_sample hr hend h
  obtain ⟨htone, hcur⟩ := tone_and_byteInFlight_of_sample hs hinside hfirst
  obtain ⟨-, hphase, -, -⟩ := hs
  have ⟨_, hsib, _⟩ := hr
  obtain ⟨-, hbitpos⟩ := position_of_samplesDone hsib
  have hconsumed : t.bitsConsumed = s.bitpos + 1 := bitsConsumed_count (by rw [ht]) (by rw [ht])
  have hsamples : t.samplesDone = s.samplesDone + 1 := by rw [ht]; exact samplesDone_count s
  have hpkt : t.pkt = s.pkt := by rw [ht]
  have hcfg : t.cfg = s.cfg := by rw [ht]
  rw [State.FollowsPacket, hconsumed, hsamples, hpkt, hcfg, phaseAfter, ← hbitpos, ← hphase, ← htone, ht]
  exact ⟨rfl, rfl, fun _ => rfl, fun _ => hcur⟩

/-- The run that START enters: it is at its first position (43_orchestrator_interface.md R110). -/
theorem execStart_run {s t : State} {a : Nat} (h : execStart a s = .next t) :
    t.cf = 1 ∧ t.cfg = s.cfg ∧ t.length = a ∧ t.pkt = s.pkt ∧ t.samplesDone = 0 := by
  obtain ⟨-, -, rfl⟩ := execStart_next h
  exact ⟨rfl, rfl, rfl, rfl, Nat.zero_mul _⟩

/-- START begins a run by its closed form, whatever the registers held. -/
theorem execStart_followsPacket {s t : State} {a : Nat} (h : execStart a s = .next t) : t.FollowsPacket := by
  obtain ⟨-, -, -, -, hsamples⟩ := execStart_run h
  obtain ⟨-, -, rfl⟩ := execStart_next h
  rw [State.FollowsPacket, hsamples]
  exact ⟨rfl, rfl, nofun, nofun⟩

/-- An idle state has nothing to follow. -/
theorem State.Inv.runInv_of_idle {s : State} (hs : s.Inv) (hcf : s.cf = 0) : s.RunInv :=
  ⟨hs, fun hmode => by simp [hcf] at hmode⟩

/-- TICK keeps the closed form: the final tick ends the run, and a sample tick follows it. -/
theorem execTick_keeps_runInv {s t : State} (hs : s.RunInv) (h : execTick s = .next t) : t.RunInv := by
  obtain ⟨hinv, hrun⟩ := hs
  have hinv' : t.Inv := execTick_keeps_inv hinv h
  rcases execTick_next h with ⟨-, rfl⟩ | ⟨-, -, rfl⟩ | ⟨hten, hend, -⟩
  case inl => exact ⟨hinv, hrun⟩
  case inr.inl => exact hinv'.runInv_of_idle rfl
  case inr.inr =>
    have ⟨_, hflags, _⟩ := hinv
    have hcf : s.cf = 1 := hflags.trans hten
    exact ⟨hinv', fun _ => execTick_sample_followsPacket (hinv.running hcf) (hrun (s.mode_eq_running.2 hcf)) hend h⟩

/-- Every operation that answers keeps the closed form of the run in progress. -/
theorem exec_keeps_runInv {i : Instr} {s t : State} (hs : s.RunInv) (h : exec i s = .next t) : t.RunInv := by
  have ⟨hinv₀, _⟩ := hs
  have hinv : t.Inv := exec_keeps_inv hinv₀ h
  cases i with
  | nop => cases h; exact hs
  | reset => cases h; exact hinv.runInv_of_idle rfl
  | pktwr index byte =>
    obtain ⟨hcf, -, rfl⟩ := execPktwr_next h
    exact hinv.runInv_of_idle hcf
  | start a => exact ⟨hinv, fun _ => execStart_followsPacket h⟩
  | tick => exact execTick_keeps_runInv hs h
  | poll => cases h; exact hs

/-- Settles O39: a step performs one operation, and the words to come have no part in the closed form. -/
theorem stepKeepsTheClosedForm : Obligations.StepKeepsTheClosedForm := by
  intro s t hs h
  rcases step_next h with ⟨-, rfl⟩ | ⟨w, rest, i, -, -, hexec⟩
  · exact hs
  · have hrest : (s.setTrace rest).RunInv := hs
    exact exec_keeps_runInv hrest hexec

/-- TICKs in a row keep the closed form. -/
theorem ticks_keeps_runInv {k : Nat} {s t : State} (hs : s.RunInv) (h : ticks k s = .next t) : t.RunInv := by
  induction k generalizing s with
  | zero => cases h; exact hs
  | succ k ih =>
    obtain ⟨u, hu, h⟩ := andThen_eq_next.1 h
    exact ih (execTick_keeps_runInv hs hu) h

/-! ## The sample ticks of a run complete -/

/-- FRAME completes at every position of a written packet (R50, R82). -/
theorem exists_frame {s : State} (hbitpos : s.bitpos < s.length * 8) (hlength : s.length ≤ s.cfg.cap)
    (hw : s.Written s.length) : ∃ f, frame s = .next f := by
  obtain ⟨b, hb⟩ := Option.isSome_iff_exists.1 (hw (s.bitpos / 8) (by omega))
  rw [frame_eq (by omega), hb]
  split
  · exact ⟨_, rfl⟩
  · exact ⟨_, rfl⟩

/-- A TICK short of the end position completes where the packet is written. -/
theorem exists_execTick_sample {s : State} (hs : s.Inv) (hcf : s.cf = 1) (hend : s.bitpos ≠ s.length * 8)
    (hw : s.Written s.length) : ∃ t, execTick s = .next t := by
  obtain ⟨hten, -, hbitpos, hlength⟩ := hs.running hcf
  rw [execTick_sample hten hend, frameStep]
  split
  · obtain ⟨f, hf⟩ := exists_frame (by omega) hlength hw
    exact ⟨_, by rw [hf, andThen_next]⟩
  · exact ⟨_, rfl⟩

/-- State t stands k samples further than s in the same run. -/
structure State.SamplesLater (s t : State) (k : Nat) : Prop where
  inv : t.Inv
  cf : t.cf = 1
  cfg : t.cfg = s.cfg
  length : t.length = s.length
  pkt : t.pkt = s.pkt
  samplesDone : t.samplesDone = s.samplesDone + k

theorem State.SamplesLater.trans {s t u : State} {j k : Nat} (h : s.SamplesLater t j) (h' : t.SamplesLater u k) :
    s.SamplesLater u (j + k) where
  inv := h'.inv
  cf := h'.cf
  cfg := h'.cfg.trans h.cfg
  length := h'.length.trans h.length
  pkt := h'.pkt.trans h.pkt
  samplesDone := by rw [h'.samplesDone, h.samplesDone, Nat.add_assoc]

/-- A TICK short of the end position is one sample (60_exceptions.md R137). -/
theorem samplesLater_of_execTick {s t : State} (hs : s.Inv) (hcf : s.cf = 1) (hend : s.bitpos ≠ s.length * 8)
    (h : execTick s = .next t) : s.SamplesLater t 1 := by
  have hinv : t.Inv := execTick_keeps_inv hs h
  obtain ⟨tone, cur, rfl, -⟩ := execTick_next_sample (hs.running hcf) hend h
  exact ⟨hinv, hcf, rfl, rfl, rfl, samplesDone_count s⟩

/-- The sample ticks of a run over a written packet, as many as are left, complete one after the other (R99). -/
theorem exists_ticks_samplesLater {s : State} (hs : s.Inv) (hcf : s.cf = 1) (hw : s.Written s.length) {k : Nat}
    (hk : s.samplesDone + k ≤ s.length * 8 * s.cfg.spb) : ∃ t, ticks k s = .next t ∧ s.SamplesLater t k := by
  induction k with
  | zero => exact ⟨s, rfl, hs, hcf, rfl, rfl, rfl, rfl⟩
  | succ k ih =>
    obtain ⟨t, ht, hlater⟩ := ih (by omega)
    obtain ⟨-, hrun⟩ := hlater.inv.running hlater.cf
    have hend : t.bitpos ≠ t.length * 8 := by
      rw [← samplesDone_lt_iff hrun, hlater.samplesDone, hlater.length, hlater.cfg]
      omega
    have hw' : t.Written t.length := by rwa [State.Written, hlater.length, hlater.pkt]
    obtain ⟨u, hu⟩ := exists_execTick_sample hlater.inv hlater.cf hend hw'
    exact ⟨u, by rw [ticks_succ_last, ht, andThen_next, hu],
      hlater.trans (samplesLater_of_execTick hlater.inv hlater.cf hend hu)⟩

/-! ## The output trace (R105) -/

/-- START answers where its preconditions hold (R110). -/
theorem exists_execStart {s : State} {a : Nat} (hcf : s.cf = 0) (ha : a ≤ s.cfg.cap) : ∃ t, execStart a s = .next t :=
  ⟨_, by rw [execStart, if_neg (by simp [hcf]), if_neg (by omega)]⟩

/-- The registers of a run after at least one sample, by the number of samples (R105). -/
theorem State.RunInv.registers_of_samplesDone {s : State} (hs : s.RunInv) (hcf : s.cf = 1) (hpos : 0 < s.samplesDone) :
    s.phase = phaseAfter s.cfg s.pkt s.samplesDone ∧
      s.out = bitAt (s.cfg.w - 1) (phaseAfter s.cfg s.pkt s.samplesDone) ∧
      s.tone = toneAfter s.pkt ((s.samplesDone - 1) / s.cfg.spb + 1) := by
  obtain ⟨hinv, hrun⟩ := hs
  obtain ⟨htone, hphase, hout, -⟩ := hrun (s.mode_eq_running.2 hcf)
  obtain ⟨-, hsib, -⟩ := hinv.running hcf
  exact ⟨hphase, by rw [hout hpos, hphase], by rw [htone, bitsConsumed_of_samplesDone hsib hpos]⟩

/-- Settles O42: k TICKs after START stand k samples into the run, and there the closed form gives the registers. -/
theorem outputTraceIsTheClosedForm : Obligations.OutputTraceIsTheClosedForm := by
  intro s n hs hcf hn hw
  obtain ⟨u, hu⟩ := exists_execStart hcf hn
  have hinv : u.Inv := execStart_keeps_inv hs hu
  obtain ⟨hcf', hcfg, hlength, hpkt, hsamples⟩ := execStart_run hu
  refine ⟨u, hu, fun k hpos hk => ?_⟩
  have hleft : u.samplesDone + k ≤ u.length * 8 * u.cfg.spb := by
    rwa [hsamples, Nat.zero_add, hlength, hcfg, Nat.mul_comm n]
  have hw' : u.Written u.length := by rwa [State.Written, hlength, hpkt]
  obtain ⟨t, ht, hlater⟩ := exists_ticks_samplesLater hinv hcf' hw' hleft
  have hrun : t.RunInv := ticks_keeps_runInv ⟨hinv, fun _ => execStart_followsPacket hu⟩ ht
  have hdone : t.samplesDone = k := by rw [hlater.samplesDone, hsamples, Nat.zero_add]
  have hregisters := hrun.registers_of_samplesDone hlater.cf (by omega)
  rw [hdone, hlater.cfg, hlater.pkt, hcfg, hpkt] at hregisters
  exact ⟨t, ht, hregisters⟩

end Sys2Proof.Machine
end

section
/-!
The tone generator (40_tone_generator.md): DELTA, ADVANCE and DRIVE (R71 to R73), the continuity of the phase (R75), the
increment of a frequency (R77), and the registers after the final tick of a run (42_scheduler.md R102).
-/
namespace Sys2Proof

/-! ## Increments (R71, R77) -/

theorem Config.delta_zero (c : Config) : c.delta 0 = c.deltaMark := rfl

theorem Config.delta_one (c : Config) : c.delta 1 = c.deltaSpace := rfl

/-- Settles O18: the two tones, and R7 for the bound. -/
theorem deltaMapsToneToIncrement : Obligations.DeltaMapsToneToIncrement := fun c =>
  ⟨c.delta_zero, c.delta_one, c.delta_lt_period⟩

/-- Settles O4: by the bounds of a truncated quotient. -/
theorem incrementsFollowFromFrequencies : Obligations.IncrementsFollowFromFrequencies := by
  refine ⟨fun k f r hr => ⟨Nat.div_mul_le_self _ r, ?_⟩, by decide, by decide⟩
  rw [Nat.add_mul, Nat.one_mul]
  exact Nat.lt_div_mul_add hr

/-- PERIOD is even, for PHASE has at least one bit. -/
theorem Config.two_mul_half_period (c : Config) : 2 * 2 ^ (c.w - 1) = c.period :=
  mul_pow_sub_one c.w_pos.ne' 2

/-- The top bit of a phase says in which half of PERIOD it lies (R73). -/
theorem Config.bitAt_top (c : Config) {v : Nat} (hv : v < c.period) :
    bitAt (c.w - 1) v = if c.period / 2 ≤ v then 1 else 0 := by
  have htop : v / 2 ^ (c.w - 1) < 2 := Nat.div_lt_of_lt_mul (by rwa [Nat.mul_comm, c.two_mul_half_period])
  have hupper : 1 ≤ v / 2 ^ (c.w - 1) ↔ c.period / 2 ≤ v := by
    rw [Nat.le_div_iff_mul_le (Nat.two_pow_pos _), Nat.one_mul, ← c.two_mul_half_period,
      Nat.mul_div_cancel_left _ Nat.two_pos]
  have hone : v / 2 ^ (c.w - 1) = 1 ↔ 1 ≤ v / 2 ^ (c.w - 1) := by omega
  rw [bitAt_eq, Nat.mod_eq_of_lt htop]
  exact if_congr (hone.trans hupper) rfl rfl

end Sys2Proof

namespace Sys2Proof.Machine

/-! ## ADVANCE and DRIVE (R72, R73) -/

/-- Settles O19: the phase and the increment are both below PERIOD, so their sum wraps at most once. -/
theorem advanceWrapsExactlyAtPeriod : Obligations.AdvanceWrapsExactlyAtPeriod := by
  intro s hphase
  have hdelta : s.cfg.delta s.tone < s.cfg.period := s.cfg.delta_lt_period s.tone
  refine ⟨advance_eq s, fun hbelow => ?_, fun hwrap => ?_⟩
  · rw [advance_eq]
    exact Nat.mod_eq_of_lt hbelow
  · rw [advance_eq]
    exact (Nat.mod_eq_sub_mod hwrap).trans (Nat.mod_eq_of_lt (by omega))

/-- Settles O20: the top bit of PHASE is 1 in the upper half of PERIOD. -/
theorem driveTakesTheTopPhaseBit : Obligations.DriveTakesTheTopPhaseBit := by
  intro s hphase
  exact ⟨by rw [drive_eq, s.cfg.bitAt_top hphase], drive_eq s⟩

/-! ## The continuity of the phase (R75) -/

/-- FRAME, where step 2 performs it, writes neither the configuration nor PHASE. -/
theorem frameStep_cfg_phase {s f : State} (h : frameStep s = .next f) : f.cfg = s.cfg ∧ f.phase = s.phase := by
  rcases frameStep_next h with ⟨-, rfl⟩ | ⟨-, hf, -⟩
  · exact ⟨rfl, rfl⟩
  · rw [hf]; exact ⟨rfl, rfl⟩

/-- What TICK does to the phase: a sample tick adds the increment of the tone it leaves, any other tick keeps it. -/
theorem execTick_phase {s t : State} (h : execTick s = .next t) :
    t.phase = if s.ten = 1 ∧ s.bitpos ≠ s.length * 8 then (s.phase + s.cfg.delta t.tone) % s.cfg.period
      else s.phase := by
  rcases execTick_next h with ⟨hten, rfl⟩ | ⟨-, hend, rfl⟩ | ⟨hten, hend, f, hf, rfl⟩
  case inl => rw [if_neg (by simp [hten])]
  case inr.inl => rw [if_neg (by simp [hend])]
  case inr.inr =>
    obtain ⟨hcfg, hphase⟩ := frameStep_cfg_phase hf
    rw [if_pos ⟨hten, hend⟩, produceSample_frame, ← hcfg, ← hphase]

/-- Settles O28: TICK by its three paths, the other operations by their frames. -/
theorem phaseIsContinuous : Obligations.PhaseIsContinuous := by
  intro i s t _ h
  refine ⟨?sample, ?otherTick, ?start, ?other⟩
  case sample =>
    rintro rfl hten hend
    rw [execTick_phase h, if_pos ⟨hten, hend⟩]
  case otherTick =>
    rintro rfl hkept
    rw [execTick_phase h, if_neg]
    rintro ⟨hten, hend⟩
    exact hkept.elim (bit_ne_zero.2 hten) hend
  case start =>
    rintro a rfl
    obtain ⟨-, -, rfl⟩ := execStart_next h
    rfl
  case other =>
    intro htick hreset hstart
    cases i with
    | nop => cases h; rfl
    | reset => exact absurd rfl hreset
    | pktwr index byte => rw [(execPktwr_frame h).1]
    | start a => exact absurd rfl (hstart a)
    | tick => exact absurd rfl htick
    | poll => cases h; rfl

/-! ## The phase after whole baud intervals (42_scheduler.md R102) -/

/-- The baud intervals below b whose tone has the given parity: 0 counts those in mark, 1 those in space. -/
def intervalsInTone (m : Memory) (parity b : Nat) : Nat :=
  (List.range b).countP fun i => zeroBits m (i + 1) % 2 = parity

@[simp] theorem intervalsInTone_zero (m : Memory) (parity : Nat) : intervalsInTone m parity 0 = 0 := rfl

theorem intervalsInTone_succ (m : Memory) (parity b : Nat) :
    intervalsInTone m parity (b + 1) =
      intervalsInTone m parity b + if zeroBits m (b + 1) % 2 = parity then 1 else 0 := by
  simp [intervalsInTone, List.range_succ, List.countP_append, List.countP_singleton]

/-- Every baud interval is in mark or in space. -/
theorem intervalsInTone_add (m : Memory) (b : Nat) : intervalsInTone m 0 b + intervalsInTone m 1 b = b := by
  induction b with
  | zero => rfl
  | succ b ih =>
    rw [intervalsInTone_succ, intervalsInTone_succ]
    split_ifs <;> omega

theorem phaseAfter_lt_period (c : Config) (m : Memory) (t : Nat) : phaseAfter c m t < c.period := by
  cases t with
  | zero => exact c.period_pos
  | succ t => exact Nat.mod_lt _ c.period_pos

/-- Inside baud interval b every sample adds the increment of its one tone (R75). -/
theorem phaseAfter_interval (c : Config) (m : Memory) (b : Nat) {j : Nat} (hj : j ≤ c.spb) :
    phaseAfter c m (b * c.spb + j) =
      (phaseAfter c m (b * c.spb) + j * c.delta (toneAfter m (b + 1))) % c.period := by
  induction j with
  | zero => simp [Nat.mod_eq_of_lt (phaseAfter_lt_period c m _)]
  | succ j ih =>
    have hinterval : (b * c.spb + j) / c.spb = b := by
      rw [Nat.mul_comm, Nat.mul_add_div c.spb_pos, Nat.div_eq_of_lt hj, Nat.add_zero]
    rw [← Nat.add_assoc, phaseAfter, hinterval, ih (by omega), Nat.mod_add_mod, Nat.add_assoc, Nat.succ_mul]

/-- The increment of one baud interval, by the parity that selects its tone. -/
theorem delta_toneAfter (c : Config) (m : Memory) (n : Nat) :
    c.delta (toneAfter m n) = (if zeroBits m n % 2 = 0 then 1 else 0) * c.deltaMark +
      (if zeroBits m n % 2 = 1 then 1 else 0) * c.deltaSpace := by
  rw [toneAfter_eq]
  rcases Nat.mod_two_eq_zero_or_one (zeroBits m n) with h | h
  · rw [if_pos h, c.delta_zero]; simp [h]
  · rw [if_neg (by omega), c.delta_one]; simp [h]

/-- The phase after b baud intervals counts the samples of each tone, whatever their order. -/
theorem phaseAfter_intervals (c : Config) (m : Memory) (b : Nat) :
    phaseAfter c m (b * c.spb) = (c.spb * intervalsInTone m 0 b * c.deltaMark +
      c.spb * intervalsInTone m 1 b * c.deltaSpace) % c.period := by
  induction b with
  | zero => simp [phaseAfter]
  | succ b ih =>
    rw [Nat.succ_mul, phaseAfter_interval c m b le_rfl, ih, Nat.mod_add_mod, delta_toneAfter,
      intervalsInTone_succ, intervalsInTone_succ]
    congr 1
    ring

/-! ## The final state of a run (R102) -/

/-- The sample ticks after START complete, and stand in the run that START began. -/
theorem exists_ticks_of_execStart {s u : State} {n k : Nat} (hs : s.Inv) (hw : s.Written n)
    (hu : execStart n s = .next u) (hk : k ≤ 8 * n * s.cfg.spb) : ∃ t, ticks k u = .next t ∧ t.RunInv ∧
      t.cf = 1 ∧ t.cfg = s.cfg ∧ t.length = n ∧ t.pkt = s.pkt ∧ t.samplesDone = k := by
  have hinv : u.Inv := execStart_keeps_inv hs hu
  obtain ⟨hcf, hcfg, hlength, hpkt, hsamples⟩ := execStart_run hu
  have hleft : u.samplesDone + k ≤ u.length * 8 * u.cfg.spb := by
    rwa [hsamples, Nat.zero_add, hlength, hcfg, Nat.mul_comm n]
  have hw' : u.Written u.length := by rwa [State.Written, hlength, hpkt]
  obtain ⟨t, ht, hlater⟩ := exists_ticks_samplesLater hinv hcf hw' hleft
  exact ⟨t, ht, ticks_keeps_runInv ⟨hinv, fun _ => execStart_followsPacket hu⟩ ht, hlater.cf,
    hlater.cfg.trans hcfg, hlater.length.trans hlength, hlater.pkt.trans hpkt,
    by rw [hlater.samplesDone, hsamples, Nat.zero_add]⟩

/-- A TICK at the end position is the final one (R93). -/
theorem execTick_final {s : State} (hten : s.ten = 1) (hend : s.bitpos = s.length * 8) :
    execTick s = .next { s with ten := 0, cf := 0 } := by
  rw [execTick, if_neg (bit_ne_zero.2 hten), s.lengthBits_eq, if_pos hend, stopRun_eq]

/-- The registers of a run after b whole baud intervals, as the packet determines them (R105, R87). -/
theorem State.RunInv.registers_of_intervals {s : State} (hs : s.RunInv) (hcf : s.cf = 1) {b : Nat}
    (hdone : s.samplesDone = b * s.cfg.spb) :
    s.bitpos = b ∧ s.sib = 0 ∧ s.tone = toneAfter s.pkt b ∧ s.phase = phaseAfter s.cfg s.pkt (b * s.cfg.spb) ∧
      (0 < b → s.out = bitAt (s.cfg.w - 1) s.phase ∧ byteInFlight s.pkt (b - 1) = some s.cur) := by
  obtain ⟨hinv, hrun⟩ := hs
  obtain ⟨htone, hphase, hout, hcur⟩ := hrun (s.mode_eq_running.2 hcf)
  obtain ⟨-, hrange, -⟩ := hinv.running hcf
  obtain ⟨hsib, hbitpos⟩ := position_of_samplesDone hrange
  rw [hdone, Nat.mul_mod_left] at hsib
  rw [hdone, Nat.mul_div_cancel _ s.cfg.spb_pos] at hbitpos
  have hconsumed : s.bitsConsumed = b := (if_pos hsib).trans hbitpos
  rw [hconsumed] at htone hcur
  rw [hdone] at hphase hout
  exact ⟨hbitpos, hsib, htone, hphase, fun hb => ⟨hout (Nat.mul_pos hb s.cfg.spb_pos), hcur hb⟩⟩

/-- At the last bit of byte n - 1 the byte in flight is that byte shifted down to its top bit. -/
theorem byteInFlight_last (m : Memory) {n : Nat} (hn : 0 < n) :
    byteInFlight m (8 * n - 1) = (Memory.read m (n - 1)).map fun (b : Byte) => b >>> 7 := by
  have hbyte : (8 * n - 1) / 8 = n - 1 := by omega
  have hbit : (8 * n - 1) % 8 = 7 := by omega
  rw [byteInFlight, hbyte, hbit]

/-- Settles O41: the sample ticks end after 8 x n whole baud intervals, where the closed form gives the registers, and
the final tick clears the flags alone. -/
theorem finalStateOfARun : Obligations.FinalStateOfARun := by
  intro s n hs hcf hn hw
  obtain ⟨u, hu⟩ := exists_execStart hcf hn
  obtain ⟨t, ht, hrun, hcf', hcfg, hlength, hpkt, hdone⟩ := exists_ticks_of_execStart hs hw hu le_rfl
  have ⟨hinv, _⟩ := hrun
  obtain ⟨hten, -⟩ := hinv.running hcf'
  obtain ⟨hbitpos, hsib, htone, hphase, hlast⟩ :=
    hrun.registers_of_intervals (b := 8 * n) hcf' (by rw [hdone, hcfg])
  have hfinal : execTick t = .next { t with ten := 0, cf := 0 } := execTick_final hten (by omega)
  rw [hpkt, toneAfter_eq] at htone
  rw [hpkt, hcfg, phaseAfter_intervals] at hphase
  rw [hpkt, hcfg] at hlast
  have hsum : s.cfg.spb * intervalsInTone s.pkt 0 (8 * n) + s.cfg.spb * intervalsInTone s.pkt 1 (8 * n) =
      8 * n * s.cfg.spb := by
    rw [← Nat.mul_add, intervalsInTone_add, Nat.mul_comm]
  refine ⟨u, { t with ten := 0, cf := 0 }, hu, by rw [ticks_succ_last, ht, andThen_next, hfinal],
    rfl, rfl, rfl, hbitpos, hsib, hlength, htone, ⟨_, _, rfl, rfl, hsum, hphase⟩,
    fun hzero => ?empty, fun hpos => ?nonempty, hpkt⟩
  case empty =>
    subst hzero
    rw [Nat.mul_zero, Nat.zero_mul] at ht
    cases ht
    rw [execStart_frame hu]
    exact ⟨rfl, rfl⟩
  case nonempty =>
    obtain ⟨hout, hcur⟩ := hlast (by omega)
    exact ⟨hout, byteInFlight_last s.pkt hpos ▸ hcur⟩

end Sys2Proof.Machine
end

section
/-!
The bit framer (41_bit_framer.md): FRAME loads or shifts CUR, and lets its bit 0 decide the tone (R81 to R84).
-/
namespace Sys2Proof.Machine

/-- SHIFT halves the value of CUR: its bit 0 leaves, and the bit that enters is 0 (R83). -/
theorem toNat_ushiftRight_one (b : Byte) : (b >>> 1).toNat = b.toNat / 2 := by
  rw [BitVec.toNat_ushiftRight, Nat.shiftRight_one]

/-- Settles O21: the three ways of FRAME inside the buffer. A byte never written is refused, the first of the two
treatments that U3 names (R110, R124; log entry 6). -/
theorem frameFetchesOneBit : Obligations.FrameFetchesOneBit := by
  intro s hbitpos
  refine ⟨fun b hload hwritten => ?load, fun hload hunwritten => ?unwritten, fun hshift => ?shift⟩
  case load => rw [frame_eq hbitpos, if_pos hload, hwritten, Option.elim_some]
  case unwritten => rw [frame_eq hbitpos, if_pos hload, hunwritten, Option.elim_none]
  case shift => exact ⟨_, (frame_eq hbitpos).trans (if_neg hshift), toNat_ushiftRight_one s.cur, rfl⟩

end Sys2Proof.Machine
end

section
/-!
The scheduler (42_scheduler.md): COUNT (R96), the three ways of TICK (R91 to R97), the table of modes (R98), the number
of ticks of a run (R99, R114), and the pseudo-instructions, which repeat TICK until the run ends (30_encoding.md R66).
-/
namespace Sys2Proof.Machine

/-! ## COUNT and the end test (R92, R93, R96) -/

/-- Settles O22: neither counter wraps in the ranges of a run. -/
theorem countAdvancesOneSample : Obligations.CountAdvancesOneSample := by
  intro s hsib hbitpos hlength
  exact ⟨fun hlast => (count_eq hsib hbitpos hlength).trans (if_pos hlast),
    fun hinside => (count_eq hsib hbitpos hlength).trans (if_neg hinside)⟩

/-- Settles O23: the gate of TICK. -/
theorem tickIsIgnoredWhileTimerStopped : Obligations.TickIsIgnoredWhileTimerStopped :=
  fun _ hten => execTick_of_stopped hten

/-- Settles O24: the final tick is STOP, and no other tick writes the flags. -/
theorem endTestStopsTheRun : Obligations.EndTestStopsTheRun := by
  intro s hten
  refine ⟨fun hend => execTick_final hten hend, fun hend t ht => ?_⟩
  rcases execTick_flags ht with ⟨-, hend', -⟩ | ⟨-, hcf, hten'⟩
  · exact absurd hend' hend
  · exact ⟨hten'.trans hten, hcf⟩

/-! ## The sample tick (R94 to R97) -/

/-- A sample tick of a run, from what its step 2 leaves: FRAME decides CUR and TONE, and the sample is produced with
the tone just decided (R97). -/
theorem execTick_of_frameStep {s : State} {cur : Byte} {tone : Bit} (hs : s.Inv) (hcf : s.cf = 1)
    (hend : s.bitpos ≠ s.length * 8) (hframe : frameStep s = .next { s with cur := cur, tone := tone }) :
    execTick s = .next { s with
      cur := cur, tone := tone, phase := (s.phase + s.cfg.delta tone) % s.cfg.period,
      out := bitAt (s.cfg.w - 1) ((s.phase + s.cfg.delta tone) % s.cfg.period),
      sib := if s.sib + 1 = s.cfg.spb then 0 else s.sib + 1,
      bitpos := if s.sib + 1 = s.cfg.spb then s.bitpos + 1 else s.bitpos } := by
  obtain ⟨hten, hsib, hbitpos, hlength⟩ := hs.running hcf
  rw [execTick_sample hten hend, hframe, andThen_next]
  exact congrArg _ (produceSample_eq hsib (show s.bitpos < s.length * 8 by omega) hlength)

/-- Settles O25: where SIB is not 0, step 2 leaves CUR and TONE as they are. -/
theorem tickWithinABaudInterval : Obligations.TickWithinABaudInterval := by
  intro s hs hcf hend hsib
  have hframe : frameStep s = .next { s with cur := s.cur, tone := s.tone } := if_neg hsib
  exact ⟨_, execTick_of_frameStep hs hcf hend hframe, rfl, rfl, apply_ite₂ Prod.mk .., rfl⟩

/-- The first tick of a baud interval, from what its FRAME leaves. -/
theorem exists_execTick_of_frame {s : State} {cur : Byte} {tone : Bit} (hs : s.Inv) (hcf : s.cf = 1)
    (hend : s.bitpos ≠ s.length * 8) (hsib : s.sib = 0)
    (hframe : frame s = .next { s with cur := cur, tone := tone }) :
    ∃ t, execTick s = .next t ∧ t.cur = cur ∧ t.tone = tone ∧
      t.phase = (s.phase + s.cfg.delta t.tone) % s.cfg.period ∧ t.out = bitAt (s.cfg.w - 1) t.phase ∧
      (t.sib, t.bitpos) = (if s.cfg.spb = 1 then (0, s.bitpos + 1) else (1, s.bitpos)) ∧
      t = { s with cur := t.cur, tone := t.tone, phase := t.phase, out := t.out, sib := t.sib, bitpos := t.bitpos } := by
  refine ⟨_, execTick_of_frameStep hs hcf hend ((if_pos hsib).trans hframe), rfl, rfl, rfl, rfl, ?position, rfl⟩
  simp only [hsib, Nat.zero_add, eq_comm (a := 1)]
  exact apply_ite₂ Prod.mk ..

/-- Short of its end a run stands at a bit of the packet buffer (R25). -/
theorem State.Inv.bitpos_lt_cap {s : State} (hs : s.Inv) (hcf : s.cf = 1) (hend : s.bitpos ≠ s.length * 8) :
    s.bitpos < s.cfg.cap * 8 := by
  obtain ⟨-, -, hbitpos, hlength⟩ := hs.running hcf
  omega

/-- Settles O26: at a byte boundary FRAME loads the written byte. -/
theorem tickLoadsAByte : Obligations.TickLoadsAByte := by
  intro s b hs hcf hend hsib hload hwritten
  have hframe := frame_eq (hs.bitpos_lt_cap hcf hend)
  rw [if_pos hload, hwritten, Option.elim_some] at hframe
  exact exists_execTick_of_frame hs hcf hend hsib hframe

/-- Settles O27: inside a byte FRAME shifts CUR. -/
theorem tickShiftsTheByte : Obligations.TickShiftsTheByte := by
  intro s hs hcf hend hsib hshift
  have hframe := frame_eq (hs.bitpos_lt_cap hcf hend)
  rw [if_neg hshift, toNat_ushiftRight_one] at hframe
  exact exists_execTick_of_frame hs hcf hend hsib hframe

/-- A sample tick performs ADVANCE, DRIVE and COUNT once, on a state in which FRAME has changed at most CUR and TONE
(R91). -/
theorem exists_framed_of_execTick {s t : State} (hten : s.ten = 1) (hend : s.bitpos ≠ s.length * 8)
    (h : execTick s = .next t) :
    ∃ f, f = { s with cur := f.cur, tone := f.tone } ∧ execTick s = .next (count (drive (advance f))) := by
  rw [execTick_sample hten hend] at h ⊢
  obtain ⟨f, hf, -⟩ := andThen_eq_next.1 h
  refine ⟨f, ?framed, by rw [hf, andThen_next, produceSample]⟩
  rcases frameStep_next hf with ⟨-, rfl⟩ | ⟨-, hframed, -⟩
  · rfl
  · rw [hframed]

/-! ## The state machine (R98) -/

theorem execPktwr_of_running {s : State} (hcf : s.cf = 1) (index : Nat) (byte : Byte) :
    execPktwr index byte s = .refused .pktWriteWhileRunning := if_pos hcf

/-- PKTWR answers where its preconditions hold (R109). -/
theorem execPktwr_of_idle {s : State} (hcf : s.cf = 0) {index : Nat} (hindex : index < s.cfg.cap) (byte : Byte) :
    execPktwr index byte s = .next { s with pkt := Memory.write s.pkt index byte } := by
  rw [execPktwr, if_neg (bit_ne_one.2 hcf), if_neg (by omega)]
  rfl

theorem execStart_of_running {s : State} (hcf : s.cf = 1) (a : Nat) :
    execStart a s = .refused .startWhileRunning := if_pos hcf

theorem execStart_of_cap_lt {s : State} (hcf : s.cf = 0) {a : Nat} (ha : s.cfg.cap < a) :
    execStart a s = .refused .lengthExceedsCapacity := by
  rw [execStart, if_neg (bit_ne_one.2 hcf), if_pos ha]

/-- START, where its preconditions hold, writes these registers alone (R110). -/
theorem execStart_of_idle {s : State} (hcf : s.cf = 0) {a : Nat} (ha : a ≤ s.cfg.cap) : execStart a s =
    .next { s with phase := 0, tone := 0, sib := 0, bitpos := 0, length := a, ten := 1, cf := 1 } := by
  obtain ⟨t, ht⟩ := exists_execStart hcf ha
  obtain ⟨-, -, rfl⟩ := execStart_next ht
  exact ht

theorem exists_execReset_idle (s : State) : ∃ t, execReset s = .next t ∧ t.mode = .idle := ⟨_, rfl, rfl⟩

theorem execPoll_eq {s : State} {b : Bit} (hcf : s.cf = b) : execPoll s = .next { s with resp := some b } :=
  hcf ▸ rfl

/-- Settles O31: the rows of the table, first those of IDLE, then those of RUNNING. -/
theorem modeTableHolds : Obligations.ModeTableHolds := by
  intro s hs
  have ⟨_, hflags, _⟩ := hs
  refine ⟨fun hmode => ?idle, fun hmode => ?running⟩
  case idle =>
    have hcf : s.cf = 0 := s.mode_eq_idle.1 hmode
    exact ⟨rfl, exists_execReset_idle s,
      fun index byte hindex => ⟨_, execPktwr_of_idle hcf hindex byte, hmode, Memory.read_write_same s.pkt index byte⟩,
      fun a ha => ⟨_, execStart_of_idle hcf ha, rfl, rfl, rfl, rfl, rfl, rfl, rfl⟩,
      execTick_of_stopped (hflags.symm.trans hcf), execPoll_eq hcf⟩
  case running =>
    have hcf : s.cf = 1 := s.mode_eq_running.1 hmode
    refine ⟨rfl, exists_execReset_idle s, execPktwr_of_running hcf, execStart_of_running hcf,
      fun hend t ht => ?sample, fun hend => ⟨_, execTick_final (hflags.symm.trans hcf) hend, rfl⟩, execPoll_eq hcf⟩
    have hlater : s.SamplesLater t 1 := samplesLater_of_execTick hs hcf hend ht
    exact ⟨t.mode_eq_running.2 hlater.cf, hlater.samplesDone⟩

/-! ## The number of ticks of a run (R99, R114) -/

/-- TICKs while the timer is stopped are ignored, however many (R92). -/
theorem ticks_of_stopped {s : State} (hten : s.ten = 0) (k : Nat) : ticks k s = .next s := by
  induction k with
  | zero => rfl
  | succ k ih => rw [ticks_succ, execTick_of_stopped hten, andThen_next, ih]

/-- After a run has stopped, further TICKs change nothing. -/
theorem ticks_of_stopped_before {s t : State} {j k : Nat} (h : ticks j s = .next t) (hten : t.ten = 0) (hjk : j ≤ k) :
    ticks k s = .next t := by
  rw [← Nat.add_sub_cancel' hjk, ticks_add, h, andThen_next, ticks_of_stopped hten]

/-- The TICK of a run that has samples left produces one. -/
theorem exists_framed_of_samplesDone_lt {s : State} (hs : s.Inv) (hcf : s.cf = 1) (hw : s.Written s.length)
    (hleft : s.samplesDone < s.length * 8 * s.cfg.spb) :
    ∃ f, f = { s with cur := f.cur, tone := f.tone } ∧ execTick s = .next (count (drive (advance f))) := by
  obtain ⟨hten, hrun⟩ := hs.running hcf
  have hend : s.bitpos ≠ s.length * 8 := (samplesDone_lt_iff hrun).1 hleft
  obtain ⟨t, ht⟩ := exists_execTick_sample hs hcf hend hw
  exact exists_framed_of_execTick hten hend ht

/-- The TICK of a run that has no sample left is the final one. -/
theorem execTick_of_samplesDone_ge {s : State} (hs : s.Inv) (hcf : s.cf = 1)
    (hdone : s.length * 8 * s.cfg.spb ≤ s.samplesDone) : execTick s = .next (stopRun s) := by
  obtain ⟨hten, hrun⟩ := hs.running hcf
  exact execTick_final hten (not_not.1 (mt (samplesDone_lt_iff hrun).2 hdone.not_gt))

/-- Settles O40: k TICKs after START stand k samples into the run, which gives the registers, and the run has samples
left up to 8 x n x SPB. -/
theorem runHasExactlyItsTicks : Obligations.RunHasExactlyItsTicks := by
  intro s n hs hcf hn hw
  obtain ⟨u, hu⟩ := exists_execStart hcf hn
  refine ⟨u, hu, fun k hk => ?running, fun k hk => ?stopped⟩
  case running =>
    obtain ⟨t, ht, hrun, hcf', hcfg, hlength, hpkt, hdone⟩ := exists_ticks_of_execStart hs hw hu hk
    have ⟨hinv, _⟩ := hrun
    obtain ⟨hten, hrange, -⟩ := hinv.running hcf'
    obtain ⟨hsib, hbitpos⟩ := position_of_samplesDone hrange
    rw [hdone, hcfg] at hsib hbitpos
    have hw' : t.Written t.length := by rwa [State.Written, hlength, hpkt]
    have hbits : t.length * 8 * t.cfg.spb = 8 * n * s.cfg.spb := by rw [hlength, hcfg, Nat.mul_comm n]
    refine ⟨t, ht, hcf', hten, hsib, hbitpos, fun hpos => ?tone,
      fun hleft => exists_framed_of_samplesDone_lt hinv hcf' hw' (by rwa [hbits, hdone]),
      fun hlast => execTick_of_samplesDone_ge hinv hcf' (by rw [hbits, hdone, hlast])⟩
    obtain ⟨-, -, htone⟩ := hrun.registers_of_samplesDone hcf' (by rwa [hdone])
    rwa [hpkt, hdone, hcfg] at htone
  case stopped =>
    obtain ⟨t, ht, ⟨hinv, -⟩, hcf', hcfg, hlength, -, hdone⟩ := exists_ticks_of_execStart hs hw hu le_rfl
    have hfinal : ticks (8 * n * s.cfg.spb + 1) u = .next (stopRun t) := by
      rw [ticks_succ_last, ht, andThen_next,
        execTick_of_samplesDone_ge hinv hcf' (by rw [hlength, hcfg, hdone, Nat.mul_comm n])]
    exact ⟨stopRun t, ticks_of_stopped_before hfinal rfl hk, rfl, rfl, hfinal⟩

/-- Settles O43: START 0 leaves the block at its end position, so the first TICK is the final one. -/
theorem emptyPacketEmitsNothing : Obligations.EmptyPacketEmitsNothing := fun s hcf =>
  ⟨_, execStart_of_idle hcf (Nat.zero_le s.cfg.cap), rfl, rfl, execTick_final rfl rfl⟩

/-! ## The TICKs that a run still needs (R99) -/

/-- Short of the TICKs that a run needs, every one is a sample tick. -/
theorem exists_ticks_of_lt_ticksNeeded {s : State} (hs : s.Inv) (hcf : s.cf = 1) (hw : s.Written s.length) {k : Nat}
    (hk : k < s.ticksNeeded) : ∃ t, ticks k s = .next t ∧ s.SamplesLater t k := by
  rw [State.ticksNeeded] at hk
  cases k with
  | zero => exact ⟨s, rfl, hs, hcf, rfl, rfl, rfl, rfl⟩
  | succ k => exact exists_ticks_samplesLater hs hcf hw (by omega)

/-- The last TICK that a run needs stops it. -/
theorem exists_ticks_ticksNeeded {s : State} (hs : s.Inv) (hcf : s.cf = 1) (hw : s.Written s.length) :
    ∃ t, ticks s.ticksNeeded s = .next t ∧ t.cf = 0 ∧ t.ten = 0 := by
  obtain ⟨t, ht, hlater⟩ := exists_ticks_of_lt_ticksNeeded hs hcf hw (Nat.lt_succ_self _)
  have hdone : t.length * 8 * t.cfg.spb ≤ t.samplesDone := by
    rw [hlater.samplesDone, hlater.length, hlater.cfg]
    omega
  have hfinal := execTick_of_samplesDone_ge hlater.inv hlater.cf hdone
  exact ⟨stopRun t, by rw [State.ticksNeeded, ticks_succ_last, ht, andThen_next, hfinal], rfl, rfl⟩

/-- The bound that RUN is expanded with: no run needs as many TICKs. -/
theorem ticksNeeded_le_bound {s : State} (hs : s.Inv) : s.ticksNeeded ≤ 2 ^ s.cfg.sw * (2 ^ s.cfg.bw + 1) + 1 := by
  obtain ⟨⟨-, -, -, hlength, -⟩, -⟩ := hs
  have hbits : s.length * 8 ≤ 2 ^ s.cfg.bw + 1 := by
    rw [Config.bw, pow_add]
    omega
  have hsamples := Nat.mul_le_mul s.cfg.spb_le_two_pow_sw hbits
  rw [Nat.mul_comm s.cfg.spb] at hsamples
  exact Nat.succ_le_succ ((Nat.sub_le _ _).trans hsamples)

/-! ## RUN (30_encoding.md R66) -/

/-- RUN where the timer is stopped: the first TICK leaves TEN = 0. -/
theorem expandRun_of_stopped {s : State} (hten : s.ten = 0) : expandRun s = some [.tick] := by
  have hstop : stateLeft s (exec .tick s) = s := congrArg (stateLeft s) (execTick_of_stopped hten)
  rw [expandRun, repeatUntil, hstop, if_pos (decide_eq_true hten)]

/-- RUN in a run over a written packet: the TICKs that the run still needs. -/
theorem expandRun_of_running {s : State} (hs : s.Inv) (hcf : s.cf = 1) (hw : s.Written s.length) :
    expandRun s = some (List.replicate s.ticksNeeded .tick) := by
  refine repeatUntil_eq (fun j hj => ?before) ?last (ticksNeeded_le_bound hs)
  case before =>
    obtain ⟨t, ht, hlater⟩ := exists_ticks_of_lt_ticksNeeded hs hcf hw (Nat.succ_lt_succ hj)
    obtain ⟨hten, -⟩ := hlater.inv.running hlater.cf
    rw [leaveAll_of_execAll ht, hten]
    rfl
  case last =>
    obtain ⟨t, ht, -, hten⟩ := exists_ticks_ticksNeeded hs hcf hw
    rw [State.ticksNeeded] at ht
    rw [leaveAll_of_execAll ht]
    exact decide_eq_true hten

/-- Where a TICK is to be refused the timer runs, before and up to it. -/
theorem ten_of_ticks_refused {s : State} {k : Nat} {r : Refusal} (h : ticks k s = .refused r) : s.ten ≠ 0 := by
  intro hten
  rw [ticks_of_stopped hten] at h
  cases h

/-- Where a TICK is refused, every later one is refused in the same state, and no repetition of TICK leaves TEN = 0. -/
theorem repeatUntil_tick_of_refused {s : State} {k : Nat} {r : Refusal} (h : ticks k s = .refused r) (fuel : Nat) :
    repeatUntil .tick (fun t => t.ten = 0) fuel s = none := by
  induction fuel generalizing s k with
  | zero => rfl
  | succ fuel ih =>
    obtain ⟨k', hk'⟩ : ∃ k', ticks k' (stateLeft s (exec .tick s)) = .refused r := by
      cases k with
      | zero => cases h
      | succ k =>
        rcases andThen_eq_refused.1 h with hrefused | ⟨t, ht, h'⟩
        · exact ⟨k + 1, by rwa [hrefused]⟩
        · exact ⟨k, by rwa [ht]⟩
    have hten := ten_of_ticks_refused hk'
    rw [repeatUntil, if_neg (by simpa using hten), ih hk']
    rfl

/-! ## TRANSMIT (R66) -/

/-- TRANSMIT, from the RUN of the state that its START leaves, where that run ends with CF = 0. -/
theorem expandPseudo_transmit {s u t : State} {n m : Nat} (hstart : stateLeft s (exec (.start n) s) = u)
    (hrun : expandRun u = some (List.replicate m .tick)) (hticks : ticks m u = .next t) (hcf : t.cf = 0) :
    expandPseudo s (.transmit n) = some (.start n :: (List.replicate m .tick ++ [.poll])) := by
  have hleft : leaveAll exec (.start n :: List.replicate m .tick) s = t := by
    rw [leaveAll, hstart]
    exact leaveAll_of_execAll hticks
  rw [expandPseudo, hstart, hrun, Option.bind_some, hleft, expandWait_eq, if_pos hcf]
  rfl

/-- The run that START n begins over a written packet needs 8 x n x SPB + 1 TICKs. -/
theorem ticksNeeded_of_execStart {s u : State} {n : Nat} (h : execStart n s = .next u) :
    u.ticksNeeded = 8 * n * s.cfg.spb + 1 := by
  obtain ⟨-, hcfg, hlength, -, hdone⟩ := execStart_run h
  rw [State.ticksNeeded, hdone, hlength, hcfg, Nat.sub_zero, Nat.mul_comm n]

theorem loadFrom_length (index : Nat) (bytes : List Byte) : (loadFrom index bytes).length = bytes.length := by
  induction bytes generalizing index with
  | nil => rfl
  | cons b rest ih => exact congrArg Nat.succ (ih (index + 1))

/-- Settles O49: LOAD by its indices, RUN by the TICKs that the run needs, WAIT by CF, and TRANSMIT by the state that
its START leaves. -/
theorem pseudoInstructionsExpandAsWritten : Obligations.PseudoInstructionsExpandAsWritten := by
  intro s hs
  have ⟨_, hflags, _⟩ := hs
  refine ⟨fun n => rfl, rfl, fun bytes => ⟨_, rfl, loadFrom_length 0 bytes, fun j => ?load⟩,
    fun hcf => expandRun_of_stopped (hflags.symm.trans hcf), fun hcf hw => ?run,
    fun k r h => repeatUntil_tick_of_refused h _, fun hcf => (expandWait_eq s).trans (if_pos hcf),
    fun hcf => (expandWait_eq s).trans (if_neg (bit_ne_zero.2 hcf)), fun n hcf hn hw => ?transmit,
    fun n hcf hn => ?transmitTooLong, fun n hcf hw => ?transmitRunning, fun n u k r hu h => ?transmitRefused⟩
  case load => rw [loadFrom_getElem?, Nat.zero_add]
  case run =>
    obtain ⟨t, ht, -, hten⟩ := exists_ticks_ticksNeeded hs hcf hw
    refine ⟨expandRun_of_running hs hcf hw, ⟨t, ht, hten⟩, fun k hk => ?_⟩
    obtain ⟨t, ht, hlater⟩ := exists_ticks_of_lt_ticksNeeded hs hcf hw hk
    obtain ⟨hten, -⟩ := hlater.inv.running hlater.cf
    exact ⟨t, ht, hten⟩
  case transmit =>
    obtain ⟨u, hu⟩ := exists_execStart hcf hn
    obtain ⟨hcf', -, hlength, hpkt, -⟩ := execStart_run hu
    have hinv : u.Inv := execStart_keeps_inv hs hu
    have hw' : u.Written u.length := by rwa [State.Written, hlength, hpkt]
    obtain ⟨t, ht, hidle, -⟩ := exists_ticks_ticksNeeded hinv hcf' hw'
    rw [← ticksNeeded_of_execStart hu]
    exact expandPseudo_transmit (congrArg (stateLeft s) hu) (expandRun_of_running hinv hcf' hw') ht hidle
  case transmitTooLong =>
    have hten : s.ten = 0 := hflags.symm.trans hcf
    exact expandPseudo_transmit (u := s) (m := 1) (congrArg (stateLeft s) (execStart_of_cap_lt hcf hn))
      (expandRun_of_stopped hten) (ticks_of_stopped hten 1) hcf
  case transmitRunning =>
    obtain ⟨t, ht, hidle, -⟩ := exists_ticks_ticksNeeded hs hcf hw
    exact expandPseudo_transmit (congrArg (stateLeft s) (execStart_of_running hcf n)) (expandRun_of_running hs hcf hw)
      ht hidle
  case transmitRefused =>
    have hrun : expandRun u = none := repeatUntil_tick_of_refused h _
    rw [expandPseudo, hu, stateLeft_next, hrun]
    rfl

/-! ## RUN in the middle of a trace (R66, R99) -/

/-- A line that stands for operations which all answer is expanded, and the lines after it in the state that these
operations leave. -/
theorem expandTrace_cons {s t : State} {line : Line} {ops : List Instr} (rest : List Line)
    (hline : expandLine s line = some (ops.map encode)) (hwf : ∀ i ∈ ops, i.wellFormed = true)
    (hops : execAll ops s = .next t) :
    expandTrace (line :: rest) s = (expandTrace rest t).map (ops.map encode ++ ·) := by
  have hleft : leaveAll performWord (ops.map encode) s = t := by
    rw [leaveAll_map_encode fun i hi => decodeOfEncode i (hwf i hi), leaveAll_of_execAll hops]
  rw [expandTrace, hline, Option.bind_some, hleft]

/-- TICKs have no operand, so they can be written. -/
theorem wellFormed_of_mem_replicate_tick {k : Nat} {i : Instr} (h : i ∈ List.replicate k Instr.tick) :
    i.wellFormed = true := by
  rw [List.eq_of_mem_replicate h]
  rfl

/-- A length within the capacity fits the operand of START (00_scope.md R7, 30_encoding.md R59). -/
theorem start_wellFormed {c : Config} {n : Nat} (hn : n ≤ c.cap) : (Instr.start n).wellFormed = true := by
  have ⟨_, _, _, _, _, hlw, _, _⟩ := c.ok
  have hcap : c.cap < 2 ^ 16 := c.cap_lt_two_pow_lw.trans_le (Nat.pow_le_pow_right Nat.two_pos hlw)
  exact decide_eq_true (by omega)

/-- Settles O50: after START n and k TICKs the run stands k samples in, and needs that many TICKs less. -/
theorem runCountsTheTicksBeforeIt : Obligations.RunCountsTheTicksBeforeIt := by
  intro s n k hs hcf hn hw hk
  obtain ⟨u, hu⟩ := exists_execStart hcf hn
  obtain ⟨t, ht, ⟨hinv, -⟩, hcf', hcfg, hlength, hpkt, hdone⟩ := exists_ticks_of_execStart hs hw hu hk
  have hw' : t.Written t.length := by rwa [State.Written, hlength, hpkt]
  obtain ⟨v, hv, -⟩ := exists_ticks_ticksNeeded hinv hcf' hw'
  have hneeded : t.ticksNeeded = 8 * n * s.cfg.spb + 1 - k := by
    rw [State.ticksNeeded, hdone, hlength, hcfg, Nat.mul_comm n]
    omega
  have hwf : (Instr.start n).wellFormed = true := start_wellFormed hn
  have hline : expandLine s (.command (.start n)) = some ([.start n].map encode) := if_pos hwf
  have hstart : execAll [.start n] s = .next u := congrArg (andThen · _) hu
  have hrun : expandLine t (.pseudo .run) = some ((List.replicate t.ticksNeeded .tick).map encode) :=
    congrArg (Option.map _) (expandRun_of_running hinv hcf' hw')
  rw [expandTrace_cons _ hline (by simpa using hwf) hstart,
    expandTrace_cons (ops := List.replicate k .tick) _ rfl (fun _ => wellFormed_of_mem_replicate_tick) ht,
    expandTrace_cons _ hrun (fun _ => wellFormed_of_mem_replicate_tick) hv, hneeded]
  simp [expandTrace]

end Sys2Proof.Machine
end

section
/-!
The orchestrator interface (43_orchestrator_interface.md): NOP, RESET, PKTWR, START and POLL (R107 to R111), a run
depends on its packet alone (R115), and POLLs and NOPs between its TICKs do not disturb it.
-/
namespace Sys2Proof.Machine

/-! ## Two runs of one length over the same bytes (R115)

They go in step: each TICK does the same to both, and what CUR and OUT held before the first sample is overwritten by
it. -/

/-- The states s and s' stand at the same position of two runs of length n over packets with the same first n bytes. -/
structure State.InStep (n : Nat) (s s' : State) : Prop where
  cfg : s'.cfg = s.cfg
  phase : s'.phase = s.phase
  tone : s'.tone = s.tone
  sib : s'.sib = s.sib
  bitpos : s'.bitpos = s.bitpos
  length : s.length = n
  length' : s'.length = n
  cf : s'.cf = s.cf
  ten : s'.ten = s.ten
  bytes : ∀ j < n, Memory.read s'.pkt j = Memory.read s.pkt j
  ranges : s.ten = 1 → s.RunRanges

/-- START puts two blocks in step, whatever their registers held. -/
theorem inStep_of_execStart {s s' u u' : State} {n : Nat} (hcfg : s.cfg = s'.cfg)
    (hbytes : ∀ j < n, Memory.read s.pkt j = Memory.read s'.pkt j) (hu : execStart n s = .next u)
    (hu' : execStart n s' = .next u') : u.InStep n u' := by
  obtain ⟨-, hcap, rfl⟩ := execStart_next hu
  obtain ⟨-, -, rfl⟩ := execStart_next hu'
  exact ⟨hcfg.symm, rfl, rfl, rfl, rfl, rfl, rfl, rfl, rfl, fun j hj => (hbytes j hj).symm,
    fun _ => ⟨s.cfg.spb_pos, Nat.zero_le _, hcap⟩⟩

/-- Step 2 of a sample tick leaves the same byte in flight and the same tone in both: it loads the same byte, or shifts
a byte in flight that was already the same. -/
theorem State.InStep.frameStep_inStep {n : Nat} {s s' f : State} (h : s.InStep n s') (hlt : s.bitpos < n * 8)
    (hcap : n ≤ s.cfg.cap) (hcur : s.bitpos = 0 ∧ s.sib = 0 ∨ s'.cur = s.cur) (hf : frameStep s = .next f) :
    ∃ cur tone, f = { s with cur := cur, tone := tone } ∧
      frameStep s' = .next { s' with cur := cur, tone := tone } := by
  by_cases hsib : s.sib = 0
  case pos =>
    rw [frameStep, if_pos hsib, frame_eq (by omega)] at hf
    rw [frameStep, if_pos (h.sib.trans hsib), frame_eq (by rw [h.bitpos, h.cfg]; omega), h.bitpos, h.tone,
      h.bytes _ (by omega)]
    split at hf
    case isTrue hload =>
      rw [if_pos hload]
      cases hread : Memory.read s.pkt (s.bitpos / 8) with
      | none => rw [hread] at hf; cases hf
      | some b => rw [hread] at hf; cases hf; exact ⟨_, _, rfl, rfl⟩
    case isFalse hshift =>
      cases hf
      rw [if_neg hshift, hcur.resolve_left fun hfirst => hshift (by omega)]
      exact ⟨_, _, rfl, rfl⟩
  case neg =>
    rw [frameStep, if_neg hsib] at hf
    cases hf
    refine ⟨s.cur, s.tone, rfl, ?_⟩
    rw [frameStep, if_neg (by rwa [h.sib]), ← h.tone, ← hcur.resolve_left fun hfirst => hsib hfirst.2]

/-- Steps 3 and 4 of a sample tick keep two runs in step, and drive the same level. -/
theorem State.InStep.produceSample_inStep {n : Nat} {s s' : State} (h : s.InStep n s') (hrun : s.RunRanges)
    (hlt : s.bitpos < n * 8) :
    (produceSample s).InStep n (produceSample s') ∧ (produceSample s').out = (produceSample s).out := by
  obtain ⟨hsib, -, hcap⟩ := hrun
  have hlength := h.length
  rw [produceSample_eq hsib (by omega) hcap,
    produceSample_eq (s := s') (by rwa [h.sib, h.cfg]) (by rwa [h.bitpos, h.length']) (by rw [h.length', h.cfg]; omega)]
  refine ⟨{ h with phase := ?_, sib := ?_, bitpos := ?_, ranges := fun _ => ?ranges }, ?_⟩
  case ranges => refine ⟨?_, ?_, hcap⟩ <;> dsimp only <;> split <;> omega
  all_goals simp only [h.cfg, h.phase, h.tone, h.sib, h.bitpos]

/-- A TICK that answers in one of two runs in step answers in the other, and they stay in step. From the first sample
on, they agree in OUT and CUR. -/
theorem State.InStep.execTick_inStep {n : Nat} {s s' t : State} (h : s.InStep n s')
    (hshow : (s.ten = 1 ∧ s.bitpos = 0 ∧ s.sib = 0) ∨ (0 < n → s'.out = s.out ∧ s'.cur = s.cur))
    (ht : execTick s = .next t) :
    ∃ t', execTick s' = .next t' ∧ t.InStep n t' ∧ (0 < n → t'.out = t.out ∧ t'.cur = t.cur) := by
  have hlength := h.length
  rcases execTick_next ht with ⟨hten, rfl⟩ | ⟨hten, hend, rfl⟩ | ⟨hten, hend, f, hf, rfl⟩
  case inl =>
    have hstarted : ¬(t.ten = 1 ∧ t.bitpos = 0 ∧ t.sib = 0) := fun hfirst => by simp [hten] at hfirst
    exact ⟨s', execTick_of_stopped (h.ten.trans hten), h, hshow.resolve_left hstarted⟩
  case inr.inl =>
    have hend' : s'.bitpos = s'.length * 8 := by rw [h.bitpos, h.length', hend, hlength]
    refine ⟨stopRun s', execTick_final (h.ten.trans hten) hend', { h with cf := rfl, ten := rfl, ranges := nofun }, ?_⟩
    exact fun hpos => hshow.resolve_left (by omega) hpos
  case inr.inr =>
    have hrun := h.ranges hten
    have ⟨_, hbitpos, hcap⟩ := hrun
    have hlt : s.bitpos < n * 8 := by omega
    have hcur : s.bitpos = 0 ∧ s.sib = 0 ∨ s'.cur = s.cur :=
      hshow.imp (fun hfirst => hfirst.2) fun hsame => (hsame (by omega)).2
    obtain ⟨cur, tone, rfl, hf'⟩ := h.frameStep_inStep hlt (by omega) hcur hf
    have hframed : State.InStep n { s with cur := cur, tone := tone } { s' with cur := cur, tone := tone } :=
      { h with tone := rfl }
    obtain ⟨hstep, hout⟩ := hframed.produceSample_inStep hrun hlt
    refine ⟨_, ?_, hstep, fun _ => ⟨hout, ?_⟩⟩
    · rw [execTick_sample (h.ten.trans hten) (by rw [h.bitpos, h.length']; omega), hf', andThen_next]
    · rw [produceSample_frame, produceSample_frame]

/-- TICKs, one at least, keep two runs in step, and make them agree in OUT and CUR. -/
theorem State.InStep.ticks_inStep {n k : Nat} {s s' t : State} (h : s.InStep n s')
    (hshow : (s.ten = 1 ∧ s.bitpos = 0 ∧ s.sib = 0) ∨ (0 < n → s'.out = s.out ∧ s'.cur = s.cur))
    (ht : ticks (k + 1) s = .next t) :
    ∃ t', ticks (k + 1) s' = .next t' ∧ t.InStep n t' ∧ (0 < n → t'.out = t.out ∧ t'.cur = t.cur) := by
  induction k generalizing s s' with
  | zero =>
    obtain ⟨u, hu, hut⟩ := andThen_eq_next.1 ht
    cases hut
    obtain ⟨u', hu', hstep⟩ := h.execTick_inStep hshow hu
    exact ⟨u', by rw [ticks_succ, hu', andThen_next, ticks_zero], hstep⟩
  | succ k ih =>
    obtain ⟨u, hu, ht⟩ := andThen_eq_next.1 ht
    obtain ⟨u', hu', hstep, hshow'⟩ := h.execTick_inStep hshow hu
    obtain ⟨t', ht', hstep'⟩ := ih hstep (.inr hshow') ht
    exact ⟨t', by rw [ticks_succ, hu', andThen_next, ht'], hstep'⟩

/-- Settles O44: START puts the two blocks in step, and every TICK keeps them so; the first sample overwrites OUT and
CUR. -/
theorem runDependsOnThePacketAlone : Obligations.RunDependsOnThePacketAlone := by
  intro s s' n k u u' hcfg hbytes hu hu'
  have h : u.InStep n u' := inStep_of_execStart hcfg hbytes hu hu'
  have hfirst : (u.phase = 0 ∧ u.tone = 0 ∧ u.sib = 0 ∧ u.bitpos = 0 ∧ u.length = n) ∧ u.ten = 1 := by
    obtain ⟨-, -, rfl⟩ := execStart_next hu
    exact ⟨⟨rfl, rfl, rfl, rfl, rfl⟩, rfl⟩
  obtain ⟨hzero, hten⟩ := hfirst
  have ⟨_, _, hsib, hbitpos, _⟩ := hzero
  refine ⟨hzero, fun t ht => ?_⟩
  have hk : ∃ t', ticks k u' = .next t' ∧ t.InStep n t' ∧ (0 < n → 0 < k → t'.out = t.out ∧ t'.cur = t.cur) := by
    cases k with
    | zero => cases ht; exact ⟨u', rfl, h, nofun⟩
    | succ k =>
      obtain ⟨t', ht', hstep, hshow⟩ := h.ticks_inStep (.inl ⟨hten, hbitpos, hsib⟩) ht
      exact ⟨t', ht', hstep, fun hn _ => hshow hn⟩
  obtain ⟨t', ht', hstep, hshow⟩ := hk
  exact ⟨t', ht', hstep.phase.symm, hstep.tone.symm, hstep.sib.symm, hstep.bitpos.symm,
    hstep.length.trans hstep.length'.symm, hstep.cf.symm, hstep.ten.symm,
    fun hn hpos => (hshow hn hpos).imp Eq.symm Eq.symm⟩

/-! ## PKTWR and START (R109, R110) -/

theorem execPktwr_of_cap_le {s : State} (hcf : s.cf = 0) {index : Nat} (hindex : s.cfg.cap ≤ index) (byte : Byte) :
    execPktwr index byte s = .refused .pktIndexOutOfRange := by
  rw [execPktwr, if_neg (bit_ne_one.2 hcf), if_pos hindex]

/-- Settles O16: the two refusals, and the store. -/
theorem pktwrStoresOneByte : Obligations.PktwrStoresOneByte := by
  intro s index byte
  refine ⟨fun hcf => execPktwr_of_running hcf index byte, fun hcf hindex => execPktwr_of_cap_le hcf hindex byte,
    fun hcf hindex => ⟨_, execPktwr_of_idle hcf hindex byte, Memory.read_write_same s.pkt index byte, ?frame, rfl⟩⟩
  exact fun a ha => Memory.read_write_other s.pkt byte ha

/-- The LOADBYTE of a byte that was never written refuses its TICK (R82, U3). -/
theorem execTick_of_unwritten {s : State} (hs : s.Inv) (hcf : s.cf = 1) (hend : s.bitpos ≠ s.length * 8)
    (hsib : s.sib = 0) (hload : s.bitpos % 8 = 0) (hunwritten : Memory.read s.pkt (s.bitpos / 8) = none) :
    execTick s = .refused .packetByteUnwritten := by
  obtain ⟨hten, -⟩ := hs.running hcf
  rw [execTick_sample hten hend, frameStep, if_pos hsib, frame_eq (hs.bitpos_lt_cap hcf hend), if_pos hload, hunwritten,
    Option.elim_none, andThen_refused]

/-- Settles O17: the two refusals and the start; an unwritten byte is the affair of TICK (log entry 6). -/
theorem startBeginsATransmission : Obligations.StartBeginsATransmission := fun _ a =>
  ⟨fun hcf => execStart_of_running hcf a, fun hcf ha => execStart_of_cap_lt hcf ha,
    fun hcf ha => execStart_of_idle hcf ha, execTick_of_unwritten⟩

/-! ## POLLs and NOPs between the TICKs of a run

No part of TICK reads or writes the answer of POLL, so TICK can be performed before or after a change of it. -/

theorem frame_setResp (s : State) (r : Option Bit) :
    frame (s.setResp r) = andThen (frame s) fun f => .next (f.setResp r) := by
  have hdecide (u : State) : decideTone (u.setResp r) = (decideTone u).setResp r := by
    rw [decideTone_eq, decideTone_eq]
    rfl
  have hbyte : (s.setResp r).byteIndex = s.byteIndex := rfl
  unfold frame loadByte
  rw [State.bitNumber_eq, State.bitNumber_eq, State.readPacket_eq, State.readPacket_eq, hbyte, State.setResp_bitpos,
    State.setResp_cfg, State.setResp_pkt]
  split_ifs
  · rfl
  · cases Memory.read s.pkt s.byteIndex with
    | none => rfl
    | some b => exact congrArg _ (hdecide (s.setCur b))
  · exact congrArg _ (hdecide (shift s))

theorem frameStep_setResp (s : State) (r : Option Bit) :
    frameStep (s.setResp r) = andThen (frameStep s) fun f => .next (f.setResp r) := by
  rw [frameStep, frameStep, State.setResp_sib, frame_setResp]
  split
  · rfl
  · rfl

theorem produceSample_setResp (s : State) (r : Option Bit) :
    produceSample (s.setResp r) = (produceSample s).setResp r := by
  have hcount : (count (s.setResp r)).sib = (count s).sib ∧ (count (s.setResp r)).bitpos = (count s).bitpos := by
    rw [count, count, State.setResp_sib, State.setResp_cfg]
    split
    · exact ⟨rfl, rfl⟩
    · exact ⟨rfl, rfl⟩
  obtain ⟨hsib, hbitpos⟩ := hcount
  rw [produceSample_frame, produceSample_frame s, hsib, hbitpos]
  rfl

theorem execTick_setResp (s : State) (r : Option Bit) :
    execTick (s.setResp r) = andThen (execTick s) fun t => .next (t.setResp r) := by
  have hbits : (s.setResp r).lengthBits = s.lengthBits := rfl
  rw [execTick, execTick, frameStep_setResp, State.setResp_ten, State.setResp_bitpos, hbits]
  split_ifs
  · rfl
  · rfl
  · cases frameStep s with
    | next f => exact congrArg _ (produceSample_setResp f r)
    | fault x => rfl
    | refused x => rfl

/-- Operations without a POLL keep the last answer. -/
theorem execAll_resp {l : List Instr} (hl : ∀ i ∈ l, i ≠ .poll) {s t : State} (h : execAll l s = .next t) :
    t.resp = s.resp := by
  induction l generalizing s with
  | nil => cases h; rfl
  | cons i l ih =>
    obtain ⟨u, hu, h⟩ := andThen_eq_next.1 h
    obtain ⟨-, -, hresp⟩ := exec_keeps_outside hu
    exact (ih (fun j hj => hl j (List.mem_cons_of_mem i hj)) h).trans (hresp (hl i List.mem_cons_self))

/-- POLLs, NOPs and TICKs in a row do what the TICKs of them do, but for the answer of POLL, whatever it was before. -/
theorem exists_execAll_passive {ops : List Instr} (hops : ops.all passiveOp = true) (s : State) (q : Option Bit) :
    ∃ r, execAll ops (s.setResp q) = andThen (execAll (ops.filter (· = .tick)) s) fun t => .next (t.setResp r) := by
  induction ops generalizing s q with
  | nil => exact ⟨q, rfl⟩
  | cons i ops ih =>
    rw [List.all_cons, Bool.and_eq_true] at hops
    obtain ⟨hi, hops⟩ := hops
    cases i with
    | nop => exact ih hops s q
    | poll => exact ih hops s (some s.cf)
    | tick =>
      have htick : exec .tick (s.setResp q) = andThen (exec .tick s) fun t => .next (t.setResp q) :=
        execTick_setResp s q
      rw [execAll, htick, List.filter_cons_of_pos (by decide), execAll]
      cases exec .tick s with
      | next t => exact ih hops t q
      | fault x => exact ⟨q, rfl⟩
      | refused x => exact ⟨q, rfl⟩
    | _ => cases hi

/-- Settles O45: the sequence does what its TICKs do, and these keep the answer of POLL. -/
theorem pollsAndNopsDoNotDisturbARun : Obligations.PollsAndNopsDoNotDisturbARun := by
  intro ops s hops
  obtain ⟨r, hr⟩ := exists_execAll_passive hops s s.resp
  rw [State.setResp_self] at hr
  refine ⟨fun t ht => ⟨r, by rw [hr, ht]; rfl⟩, fun t ht => ?all, fun x => by simp [hr, andThen_eq_refused]⟩
  case all =>
    rw [hr] at ht
    obtain ⟨u, hu, ht⟩ := andThen_eq_next.1 ht
    cases ht
    have hresp : u.resp = s.resp := execAll_resp (by simp +contextual) hu
    rw [hu, ← hresp]
    rfl

/-! ## NOP, POLL and RESET (R107, R108, R111) -/

/-- Settles O13: NOP is the identity by definition. -/
theorem nopDoesNothing : Obligations.NopDoesNothing := fun _ => rfl

/-- Settles O14: the state that POLL answers is the one in hand with its answer set to CF. -/
theorem pollReturnsTheCompletionFlag : Obligations.PollReturnsTheCompletionFlag := fun s =>
  ⟨s.setResp (some s.cf), rfl, rfl, rfl⟩

/-- Settles O15: RESET cuts every free value to the width of its register, and lists no byte of PKT. -/
theorem resetEntersThePowerOnState : Obligations.ResetEntersThePowerOnState := by
  intro s
  have ⟨t, ht, hmode⟩ := exists_execReset_idle s
  have ⟨hfits, _⟩ := execReset_keeps_inv ht
  rw [execReset_eq] at ht
  cases ht
  exact ⟨_, execReset_eq s, rfl, rfl, hmode, Memory.read_nil, hfits, rfl, rfl, rfl⟩

end Sys2Proof.Machine
end

section
/-!
The exceptions (60_exceptions.md): the block raises no fault (R123), an operation is refused exactly where it breaks a
precondition (R124, R130), and RESET presented together with another operation comes after it (R131).
-/
namespace Sys2Proof.Machine

/-! ## Which violation an operation meets (R124, R130) -/

/-- The violations of PKTWR, in the order of its tests. -/
theorem execPktwr_of_violation {s : State} {index : Nat} {byte : Byte} {r : Refusal}
    (h : violation (.pktwr index byte) s = some r) : execPktwr index byte s = .refused r := by
  simp only [violation, State.mode_eq_running] at h
  split_ifs at h with hcf hindex
  · obtain rfl := Option.some.inj h
    exact execPktwr_of_running hcf index byte
  · obtain rfl := Option.some.inj h
    exact execPktwr_of_cap_le (bit_ne_one.1 hcf) hindex byte

/-- The violations of START, in the order of its tests. -/
theorem execStart_of_violation {s : State} {a : Nat} {r : Refusal} (h : violation (.start a) s = some r) :
    execStart a s = .refused r := by
  simp only [violation, State.mode_eq_running] at h
  split_ifs at h with hcf ha
  · obtain rfl := Option.some.inj h
    exact execStart_of_running hcf a
  · obtain rfl := Option.some.inj h
    exact execStart_of_cap_lt (bit_ne_one.1 hcf) ha

/-- The one violation of TICK is the load of a byte never written. -/
theorem execTick_of_violation {s : State} {r : Refusal} (hs : s.Inv) (h : violation .tick s = some r) :
    execTick s = .refused r := by
  have ⟨_, hflags, _⟩ := hs
  simp only [violation] at h
  split_ifs at h with hload
  obtain rfl := Option.some.inj h
  obtain ⟨hten, hend, hsib, hbyte, hunwritten⟩ := hload
  exact execTick_of_unwritten hs (hflags.trans hten) hend hsib hbyte hunwritten

/-- A broken precondition is refused by its name. -/
theorem exec_of_violation {i : Instr} {s : State} {r : Refusal} (hs : s.Inv) (h : violation i s = some r) :
    exec i s = .refused r := by
  cases i with
  | nop => cases h
  | reset => cases h
  | pktwr index byte => exact execPktwr_of_violation h
  | start a => exact execStart_of_violation h
  | tick => exact execTick_of_violation hs h
  | poll => cases h

/-! ## Operations without a violation complete (R50, R123) -/

theorem exists_execPktwr_of_no_violation {s : State} {index : Nat} {byte : Byte}
    (h : violation (.pktwr index byte) s = none) : ∃ t, execPktwr index byte s = .next t := by
  simp only [violation, State.mode_eq_running] at h
  split_ifs at h with hcf hindex
  exact ⟨_, execPktwr_of_idle (bit_ne_one.1 hcf) (Nat.lt_of_not_le hindex) byte⟩

theorem exists_execStart_of_no_violation {s : State} {a : Nat} (h : violation (.start a) s = none) :
    ∃ t, execStart a s = .next t := by
  simp only [violation, State.mode_eq_running] at h
  split_ifs at h with hcf ha
  exact exists_execStart (bit_ne_one.1 hcf) (Nat.le_of_not_lt ha)

/-- FRAME completes inside the buffer, unless it has to load a byte never written (R82). -/
theorem exists_frame_of_readable {s : State} (hbitpos : s.bitpos < s.cfg.cap * 8)
    (hread : s.bitpos % 8 = 0 → Memory.read s.pkt (s.bitpos / 8) ≠ none) : ∃ f, frame s = .next f := by
  rw [frame_eq hbitpos]
  split
  case isTrue hload =>
    obtain ⟨b, hb⟩ := Option.ne_none_iff_exists'.1 (hread hload)
    exact ⟨_, by rw [hb, Option.elim_some]⟩
  case isFalse => exact ⟨_, rfl⟩

/-- Each of the three ways of TICK completes (R91): the ignored tick, the final one, and the sample tick, whose FRAME
stands inside the buffer and has a byte to load. -/
theorem exists_execTick_of_no_violation {s : State} (hs : s.Inv) (h : violation .tick s = none) :
    ∃ t, execTick s = .next t := by
  have ⟨_, hflags, _⟩ := hs
  rcases bit_eq_zero_or_one s.ten with hten | hten
  · exact ⟨s, execTick_of_stopped hten⟩
  by_cases hend : s.bitpos = s.length * 8
  · exact ⟨_, execTick_final hten hend⟩
  by_cases hsib : s.sib = 0
  · have hread (hload : s.bitpos % 8 = 0) : Memory.read s.pkt (s.bitpos / 8) ≠ none := fun hunwritten => by
      simp [violation, hten, hend, hsib, hload, hunwritten] at h
    obtain ⟨f, hf⟩ := exists_frame_of_readable (hs.bitpos_lt_cap (hflags.trans hten) hend) hread
    exact ⟨_, by rw [execTick_sample hten hend, frameStep, if_pos hsib, hf, andThen_next]⟩
  · exact ⟨_, by rw [execTick_sample hten hend, frameStep, if_neg hsib, andThen_next]⟩

/-- Every operation that breaks no precondition completes. -/
theorem exists_exec_of_no_violation {i : Instr} {s : State} (hs : s.Inv) (h : violation i s = none) :
    ∃ t, exec i s = .next t := by
  cases i with
  | nop => exact ⟨_, rfl⟩
  | reset => exact ⟨_, rfl⟩
  | pktwr index byte => exact exists_execPktwr_of_no_violation h
  | start a => exact exists_execStart_of_no_violation h
  | tick => exact exists_execTick_of_no_violation hs h
  | poll => exact ⟨_, rfl⟩

/-- Settles O33: an operation that breaks a precondition is refused by its name, and one that breaks none completes. A
byte never written is refused by the TICK that would load it (R124, U3; log entry 6). -/
theorem refusedExactlyOnAViolation : Obligations.RefusedExactlyOnAViolation := by
  refine fun i s r hs => ⟨fun hrefused => ?violates, exec_of_violation hs⟩
  cases hv : violation i s with
  | none =>
    obtain ⟨t, ht⟩ := exists_exec_of_no_violation hs hv
    cases hrefused.symm.trans ht
  | some r' =>
    cases hrefused.symm.trans (exec_of_violation hs hv)
    rfl

/-- Settles O34: an operation either is refused or completes, so it never faults. -/
theorem permittedOperationsComplete : Obligations.PermittedOperationsComplete := by
  refine fun i s hs => ⟨fun f hfault => ?noFault, exists_exec_of_no_violation hs⟩
  cases hv : violation i s with
  | none =>
    obtain ⟨t, ht⟩ := exists_exec_of_no_violation hs hv
    cases hfault.symm.trans ht
  | some r => cases hfault.symm.trans (exec_of_violation hs hv)

/-! ## RESET together with another operation (R131) -/

/-- An operation that answers no next state leaves the state as it was. -/
theorem stateLeft_of_ne_next {s : State} {x : Host.Outcome State Fault Refusal} (h : ∀ u, x ≠ .next u) :
    stateLeft s x = s := by
  cases x with
  | next u => exact absurd rfl (h u)
  | fault f => rfl
  | refused r => rfl

/-- The strobes other than `rst` stand for one operation each (30_encoding.md R67). -/
theorem pinsStrobes_length (p : Pins) :
    (pinsStrobes p).length = p.pktWe.toNat + p.start.toNat + p.tick.toNat := by
  have hstrobe (b : Bool) (i : Instr) : (if b then [i] else []).length = b.toNat := by cases b <;> rfl
  rw [pinsStrobes, List.length_append, List.length_append, hstrobe, hstrobe, hstrobe]

/-- With `rst` asserted, RESET comes last, in the state the other operation leaves. -/
theorem execPins_of_rst {p : Pins} (hrst : p.rst = true) (s : State) :
    execPins p s = exec .reset (stateLeft s (execAll (pinsStrobes p) s)) := if_pos hrst

theorem pinsOperations_of_rst {p : Pins} (hrst : p.rst = true) : pinsOperations p = pinsStrobes p ++ [.reset] := by
  rw [pinsOperations, if_pos hrst]

/-- Settles O48: whatever state the other operation leaves, RESET answers from it (O15). -/
theorem resetWinsOverOtherStrobes : Obligations.ResetWinsOverOtherStrobes := by
  refine fun p s => ⟨fun hlawful => ?atMostOne, fun hrst => by simp [execPins_eq, hrst],
    fun hrst => ⟨?reset, pinsOperations_of_rst hrst, fun u hu => ?answers, fun hstops => ?stops⟩⟩
  case atMostOne =>
    simp only [pinsLawful, Bool.and_eq_true, decide_eq_true_eq] at hlawful
    obtain ⟨⟨hone, -⟩, -⟩ := hlawful
    rwa [pinsStrobes_length]
  case reset =>
    obtain ⟨t, ht, hten, hcf, hmode, hpkt, hfits, -⟩ :=
      resetEntersThePowerOnState (stateLeft s (execAll (pinsStrobes p) s))
    exact ⟨t, (execPins_of_rst hrst s).trans ht, hcf, hten, hmode, hpkt, hfits⟩
  case answers =>
    have hpins : execPins p s = exec .reset u := by rw [execPins_of_rst hrst, hu, stateLeft_next]
    refine ⟨hpins, ?_⟩
    rw [hpins, pinsOperations_of_rst hrst, execAll_append, hu, andThen_next]
    rfl
  case stops => rw [execPins_of_rst hrst, stateLeft_of_ne_next hstops]

end Sys2Proof.Machine
end

section
/-!
The end of a run (42_scheduler.md R93, R99; 60_exceptions.md R125, R165): while the words to come are NOPs, POLLs and
TICKs, every TICK lowers what the run still needs by one and nothing else does, so the TICKs to come decide whether the
run ends.
-/
namespace Sys2Proof.Machine

/-! ## What a run still needs, in either mode (R99) -/

/-- The TICKs to the end of the run in progress, and 0 where there is none: `ticksNeeded` is about mode RUNNING. -/
def State.ticksLeft (s : State) : Nat := if s.cf = 1 then s.ticksNeeded else 0

theorem State.ticksLeft_of_running {s : State} (hcf : s.cf = 1) : s.ticksLeft = s.ticksNeeded := if_pos hcf

theorem State.ticksLeft_of_idle {s : State} (hcf : s.cf = 0) : s.ticksLeft = 0 := by simp [State.ticksLeft, hcf]

/-- A run in progress needs its final TICK at least. -/
theorem State.ticksLeft_pos_iff (s : State) : 0 < s.ticksLeft ↔ s.cf = 1 := by
  rcases bit_eq_zero_or_one s.cf with hcf | hcf
  · simp [State.ticksLeft_of_idle hcf, hcf]
  · simp [State.ticksLeft_of_running hcf, hcf, State.ticksNeeded]

/-- A TICK lowers it by one, where it is not 0 already (R91). -/
theorem ticksLeft_of_execTick {s t : State} (hs : s.Inv) (h : execTick s = .next t) :
    t.ticksLeft = s.ticksLeft - 1 := by
  have ⟨_, hflags, _⟩ := hs
  rcases execTick_next h with ⟨hten, rfl⟩ | ⟨hten, hend, rfl⟩ | ⟨hten, hend, -⟩
  case inl =>
    rw [State.ticksLeft_of_idle (hflags.trans hten)]
  case inr.inl =>
    have hcf : s.cf = 1 := hflags.trans hten
    obtain ⟨-, hrun⟩ := hs.running hcf
    have hdone : ¬s.samplesDone < s.length * 8 * s.cfg.spb := mt (samplesDone_lt_iff hrun).1 (not_not.2 hend)
    rw [State.ticksLeft_of_idle rfl, State.ticksLeft_of_running hcf, State.ticksNeeded]
    omega
  case inr.inr =>
    have hcf : s.cf = 1 := hflags.trans hten
    obtain ⟨-, hrun⟩ := hs.running hcf
    have hleft : s.samplesDone < s.length * 8 * s.cfg.spb := (samplesDone_lt_iff hrun).2 hend
    have hlater : s.SamplesLater t 1 := samplesLater_of_execTick hs hcf hend h
    rw [State.ticksLeft_of_running hlater.cf, State.ticksLeft_of_running hcf, State.ticksNeeded, State.ticksNeeded,
      hlater.length, hlater.cfg, hlater.samplesDone]
    omega

/-- Of NOP, POLL and TICK only TICK lowers it. -/
theorem ticksLeft_of_exec_passive {i : Instr} (hi : passiveOp i = true) {s t : State} (hs : s.Inv)
    (h : exec i s = .next t) : t.ticksLeft = s.ticksLeft - if i = .tick then 1 else 0 := by
  cases i with
  | nop => cases h; rfl
  | poll => cases h; rfl
  | tick => exact ticksLeft_of_execTick hs h
  | _ => cases hi

/-- NOP, POLL and TICK leave the packet and its length. -/
theorem exec_passive_keeps_packet {i : Instr} (hi : passiveOp i = true) {s t : State} (h : exec i s = .next t) :
    t.pkt = s.pkt ∧ t.length = s.length := by
  cases i with
  | nop => cases h; exact ⟨rfl, rfl⟩
  | poll => cases h; exact ⟨rfl, rfl⟩
  | tick => rw [execTick_frame h]; exact ⟨rfl, rfl⟩
  | _ => cases hi

/-! ## Steps with passive words to come -/

theorem passiveWord_of_decode {w : Word} {i : Instr} (h : decode w = .ok i) : passiveWord w = passiveOp i := by
  rw [passiveWord, h]

/-- A passive word spells one of the passive operations. -/
theorem exists_decode_of_passiveWord {w : Word} (h : passiveWord w = true) :
    ∃ i, decode w = .ok i ∧ passiveOp i = true := by
  rcases passiveWord_decode h with hd | hd | hd <;> exact ⟨_, hd, rfl⟩

theorem ticksToCome_of_cons {s : State} {w : Word} {rest : List Word} {i : Instr} (h : s.trace = w :: rest)
    (hd : decode w = .ok i) : s.ticksToCome = (s.setTrace rest).ticksToCome + if i = .tick then 1 else 0 := by
  simp [State.ticksToCome, h, List.countP_cons, hd]

/-- With no word to come a step answers the state in hand (log entry 9). -/
theorem step_of_no_words {s : State} (h : s.trace = []) : step s = .next s := by
  rw [step, State.nextCommand, h]

/-- A step takes one word of those to come. -/
theorem step_trace {s t : State} (h : step s = .next t) : t.trace = s.trace.tail := by
  rcases step_next h with ⟨htrace, rfl⟩ | ⟨w, rest, i, htrace, -, hexec⟩
  · rw [htrace]; rfl
  · obtain ⟨-, hkeep, -⟩ := exec_keeps_outside hexec
    rw [hkeep, htrace]; rfl

theorem steps_trace {k : Nat} {s t : State} (h : steps k s = .next t) : t.trace = s.trace.drop k := by
  induction k generalizing s with
  | zero => cases h; rfl
  | succ k ih =>
    obtain ⟨u, hu, h⟩ := andThen_eq_next.1 h
    rw [ih h, step_trace hu, List.drop_tail]

/-- State t comes after s by steps that performed NOPs, POLLs and TICKs only. What the run still needs beyond the TICKs
to come stays the same, and is 0 where those are enough. -/
structure State.PassiveLater (s t : State) : Prop where
  inv : t.Inv
  passive : t.TracePassive
  pkt : t.pkt = s.pkt
  length : t.length = s.length
  excess : t.ticksLeft - t.ticksToCome = s.ticksLeft - s.ticksToCome

theorem State.PassiveLater.trans {s t u : State} (h : s.PassiveLater t) (h' : t.PassiveLater u) : s.PassiveLater u where
  inv := h'.inv
  passive := h'.passive
  pkt := h'.pkt.trans h.pkt
  length := h'.length.trans h.length
  excess := h'.excess.trans h.excess

theorem passiveLater_of_step {s t : State} (hs : s.Inv) (hpassive : s.TracePassive) (h : step s = .next t) :
    s.PassiveLater t := by
  have hinv : t.Inv := stepKeepsTheRanges s t hs h
  rcases step_next h with ⟨-, rfl⟩ | ⟨w, rest, i, htrace, hd, hexec⟩
  · exact ⟨hs, hpassive, rfl, rfl, rfl⟩
  · rw [State.TracePassive, htrace, List.all_cons, Bool.and_eq_true, passiveWord_of_decode hd] at hpassive
    obtain ⟨hi, hrest⟩ := hpassive
    obtain ⟨hpkt, hlength⟩ := exec_passive_keeps_packet hi hexec
    obtain ⟨-, hkeep, -⟩ := exec_keeps_outside hexec
    have hleft : t.ticksLeft = s.ticksLeft - if i = .tick then 1 else 0 :=
      ticksLeft_of_exec_passive (s := s.setTrace rest) hi hs hexec
    have hcome : t.ticksToCome = (s.setTrace rest).ticksToCome := by rw [State.ticksToCome, hkeep, State.ticksToCome]
    refine ⟨hinv, by rwa [State.TracePassive, hkeep], hpkt, hlength, ?_⟩
    rw [hleft, hcome, ticksToCome_of_cons htrace hd]
    omega

theorem passiveLater_of_steps {k : Nat} {s t : State} (hs : s.Inv) (hpassive : s.TracePassive)
    (h : steps k s = .next t) : s.PassiveLater t := by
  induction k generalizing s with
  | zero => cases h; exact ⟨hs, hpassive, rfl, rfl, rfl⟩
  | succ k ih =>
    obtain ⟨u, hu, h⟩ := andThen_eq_next.1 h
    have hlater : s.PassiveLater u := passiveLater_of_step hs hpassive hu
    exact hlater.trans (ih hlater.inv hlater.passive h)

/-- With every word to come performed, the run needs the TICKs that those were short of. -/
theorem ticksLeft_of_steps {s t : State} (hs : s.Inv) (hpassive : s.TracePassive)
    (h : steps s.trace.length s = .next t) : t.ticksLeft = s.ticksLeft - s.ticksToCome := by
  have hnone : t.ticksToCome = 0 := by rw [State.ticksToCome, steps_trace h, List.drop_length, List.countP_nil]
  rw [← (passiveLater_of_steps hs hpassive h).excess, hnone, Nat.sub_zero]

/-! ## Over a written packet every such step completes -/

/-- NOP, POLL and TICK break no precondition where the packet is written: a byte that TICK loads is one of it (R50). -/
theorem violation_passive_of_written {i : Instr} (hi : passiveOp i = true) {s : State} (hs : s.Inv)
    (hw : s.Written s.length) : violation i s = none := by
  cases i with
  | nop => rfl
  | poll => rfl
  | tick =>
    refine if_neg ?_
    rintro ⟨hten, hend, -, -, hunwritten⟩
    have ⟨_, hflags, _⟩ := hs
    obtain ⟨-, -, hbitpos, -⟩ := hs.running (hflags.trans hten)
    have hread := hw (s.bitpos / 8) (by omega)
    rw [hunwritten] at hread
    cases hread
  | _ => cases hi

theorem exists_step_of_written {s : State} (hs : s.Inv) (hw : s.Written s.length) (hpassive : s.TracePassive) :
    ∃ t, step s = .next t := by
  cases htrace : s.trace with
  | nil => exact ⟨s, step_of_no_words htrace⟩
  | cons w rest =>
    rw [State.TracePassive, htrace, List.all_cons, Bool.and_eq_true] at hpassive
    obtain ⟨hword, -⟩ := hpassive
    obtain ⟨i, hd, hi⟩ := exists_decode_of_passiveWord hword
    have hrest : (s.setTrace rest).Inv := hs
    rw [step_of_decode htrace hd]
    exact exists_exec_of_no_violation hrest (violation_passive_of_written hi hrest hw)

theorem exists_steps_of_written {s : State} (hs : s.Inv) (hw : s.Written s.length) (hpassive : s.TracePassive)
    (k : Nat) : ∃ t, steps k s = .next t := by
  induction k generalizing s with
  | zero => exact ⟨s, rfl⟩
  | succ k ih =>
    obtain ⟨u, hu⟩ := exists_step_of_written hs hw hpassive
    have hlater : s.PassiveLater u := passiveLater_of_step hs hpassive hu
    have hw' : u.Written u.length := by rwa [State.Written, hlater.length, hlater.pkt]
    obtain ⟨t, ht⟩ := ih hlater.inv hw' hlater.passive
    exact ⟨t, by rw [steps, hu, andThen_next, ht]⟩

/-! ## Whether the run ends (R165) -/

/-- Settles O46: every step completes, and no TICK is left to need. -/
theorem runEndsWhenItsTicksArrive : Obligations.RunEndsWhenItsTicksArrive := by
  intro s hs hcf hw hpassive henough
  obtain ⟨t, ht⟩ := exists_steps_of_written hs hw hpassive s.trace.length
  have hleft : t.ticksLeft = 0 := by
    rw [ticksLeft_of_steps hs hpassive ht, State.ticksLeft_of_running hcf, Nat.sub_eq_zero_of_le henough]
  have hidle : t.cf = 0 := bit_ne_one.1 (mt t.ticksLeft_pos_iff.2 hleft.not_gt)
  obtain ⟨-, hflags, -⟩ := (passiveLater_of_steps hs hpassive ht).inv
  exact ⟨t, ht, hidle, hflags.symm.trans hidle, by rw [steps_trace ht, List.drop_length]⟩

/-- Settles O47: some TICK is left to need, which is so in mode RUNNING only. -/
theorem runDoesNotEndWithoutItsTicks : Obligations.RunDoesNotEndWithoutItsTicks := by
  intro s t hs hcf hpassive hshort h
  have hpos : 0 < t.ticksLeft := by
    rw [ticksLeft_of_steps hs hpassive h, State.ticksLeft_of_running hcf]
    exact Nat.sub_pos_of_lt hshort
  have hrunning : t.cf = 1 := t.ticksLeft_pos_iff.1 hpos
  obtain ⟨hten, -⟩ := (passiveLater_of_steps hs hpassive h).inv.running hrunning
  exact ⟨hrunning, hten⟩

end Sys2Proof.Machine
end

section
/-!
The free configuration (00_scope.md R6, R7; log entry 2): the six numbers reach every configuration that R7 admits.
-/
namespace Sys2Proof

/-- A configuration is its six parameters. -/
theorem Config.eq_of_parameters {c d : Config} (h : d.k = c.k ∧ d.deltaMark = c.deltaMark ∧
    d.deltaSpace = c.deltaSpace ∧ d.spb = c.spb ∧ d.lw = c.lw ∧ d.cap = c.cap) : d = c := by
  have hd := (Config.ofParameters_eq_some_iff _ _ _ _ _ _ d).2 h
  have hc := (Config.ofParameters_eq_some_iff _ _ _ _ _ _ c).2 ⟨rfl, rfl, rfl, rfl, rfl, rfl⟩
  exact Option.some.inj (hd.symm.trans hc)

/-- The increments select themselves, and the parameters that start at 1 are selected by their predecessors: R7 puts
each into the range that `Config.ofFree` leaves as it is. -/
theorem Config.ofFree_predecessors (c : Config) :
    Config.ofFree (c.k - 1) c.deltaMark c.deltaSpace (c.spb - 1) (c.lw - 1) (c.cap - 1) = c := by
  obtain ⟨hk, hmark, hspace, hspb, hlwpos, hlwmax, hcappos, hcapmax⟩ := c.ok
  have hkeq : c.k - 1 + 1 = c.k := Nat.sub_add_cancel hk
  have hdelta {d : Nat} (hd : d < 2 ^ (c.k + 7)) : d % 2 ^ (c.k - 1 + 1 + 7) = d := by
    rw [hkeq, Nat.mod_eq_of_lt hd]
  have hlweq : (c.lw - 1) % 16 + 1 = c.lw := by omega
  have hcaplt : c.cap - 1 < 2 ^ c.lw - 1 := by omega
  have hcapeq : (c.cap - 1) % (2 ^ ((c.lw - 1) % 16 + 1) - 1) + 1 = c.cap := by
    rw [hlweq, Nat.mod_eq_of_lt hcaplt, Nat.sub_add_cancel hcappos]
  exact Config.eq_of_parameters ⟨hkeq, hdelta hmark, hdelta hspace, Nat.sub_add_cancel hspb, hlweq, hcapeq⟩

/-- Settles O2: the numbers are the increments themselves and the predecessors of the other parameters. -/
theorem everyConfigurationIsAdmitted : Obligations.EveryConfigurationIsAdmitted := fun c =>
  ⟨_, _, _, _, _, _, c.ofFree_predecessors⟩

end Sys2Proof
end

section
/-!
The step (20_memory.md R44, 43_orchestrator_interface.md R107): the next command word decides what it performs, and
with none to come it performs nothing.
-/
namespace Sys2Proof.Machine

/-- Settles O11: the word of a well-formed instruction decodes to it, so the second clause is the first. -/
theorem stepPerformsTheNextCommand : Obligations.StepPerformsTheNextCommand := by
  refine fun s w rest i htrace => ⟨step_of_decode htrace, fun hi hw => ?_⟩
  exact step_of_decode htrace (hw ▸ decodeOfEncode i hi)

/-- Settles O12, by induction on the number of steps. -/
theorem noEventChangesNothing : Obligations.NoEventChangesNothing := by
  intro s k htrace
  induction k with
  | zero => rfl
  | succ k ih => rw [steps, step_of_no_words htrace, andThen_next, ih]

end Sys2Proof.Machine
end

section
/-!
The bound of the packet buffer (20_memory.md R35): LOADBYTE of an index at or above CAP (41_bit_framer.md R82).
-/
namespace Sys2Proof.Machine

/-- FRAME faults where it has to load a byte whose index does not exist (log entry 7). -/
theorem frame_of_absent_index {s : State} (hload : s.bitpos % 8 = 0) (hwidth : s.bitpos < 2 ^ s.cfg.bw)
    (habsent : s.cfg.cap ≤ s.bitpos / 8) : frame s = .fault (.packetIndexAbsent (s.bitpos / 8)) := by
  have hbyte : loadByte s = .fault (.packetIndexAbsent (s.bitpos / 8)) := by
    rw [loadByte, s.byteIndex_eq hwidth, State.readPacket_eq, if_pos habsent]
  rw [frame, if_pos (s.bitNumber_eq.trans hload), hbyte, andThen_fault]

/-- Settles O36: the fault of FRAME is the fault of the TICK that performs it. -/
theorem absentIndexFaults : Obligations.AbsentIndexFaults := by
  intro s hten hend hsib hload hwidth habsent
  calc execTick s
    _ = andThen (frameStep s) fun f => .next (produceSample f) := execTick_sample hten hend
    _ = .fault (.packetIndexAbsent (s.bitpos / 8)) := by
      rw [frameStep, if_pos hsib, frame_of_absent_index hload hwidth habsent, andThen_fault]

end Sys2Proof.Machine
end

section
/-!
Traces with refused lines (30_encoding.md R66, 60_exceptions.md R124): a line written as a word stands for that word
whatever it answers, and the lines after it are expanded in the state that it leaves (log entries 12, 14).
-/
namespace Sys2Proof.Machine

theorem expandTrace_word_cons (w : Word) (rest : List Line) (s : State) :
    expandTrace (.word w :: rest) s = (expandTrace rest (stateLeft s (performWord w s))).map (w :: ·) := rfl

/-- A command that can be written is the line of its word. -/
theorem expandTrace_command_cons {i : Instr} (hi : i.wellFormed = true) (rest : List Line) (s : State) :
    expandTrace (.command i :: rest) s = expandTrace (.word (encode i) :: rest) s := by
  have hline : expandLine s (.command i) = expandLine s (.word (encode i)) := if_pos hi
  rw [expandTrace, hline, expandTrace]

/-- Lines written as words stand for these words, in every state and whatever they answer. -/
theorem expandTrace_map_word (ws : List Word) (s : State) : expandTrace (ws.map .word) s = some ws := by
  induction ws generalizing s with
  | nil => rfl
  | cons w ws ih => rw [List.map_cons, expandTrace_word_cons, ih, Option.map_some]

/-- Settles O51: a refusal leaves the state as it was, so the lines and words after it meet that state. -/
theorem refusedLinesAreKept : Obligations.RefusedLinesAreKept := by
  refine ⟨expandTrace_map_word, fun s w r hrefused => ?_⟩
  have hleft : stateLeft s (performWord w s) = s := by rw [hrefused, stateLeft_refused]
  have hword (rest : List Line) : expandTrace (.word w :: rest) s = (expandTrace rest s).map (w :: ·) := by
    rw [expandTrace_word_cons, hleft]
  refine ⟨hleft, hword, ?command, fun ws => by rw [outcomes, hleft, hrefused]⟩
  rintro i rest hi rfl
  exact (expandTrace_command_cons hi rest s).trans (hword rest)

end Sys2Proof.Machine
end
